-- ==== Sys2Proof/Word.lean ====
section
/-! DEFINITION. The two unsigned integer widths of the spec (00_scope.md R10): bytes and 32-bit words. -/

namespace Sys2Proof

/-- `u8` of R10: a byte of the image, of the dictionary, of the header buffer or of the sink. -/
abbrev Byte := BitVec 8

/-- `u32` of R10: the checksum state, the magic number, the declared content length. -/
abbrev Word := BitVec 32

end Sys2Proof
end

