-- ==== Sys2Proof/Config.lean ====
section
/-! DEFINITION. What the spec leaves to an implementation (00_scope.md R9, 92_eei_decisions.md "Open parameters"):
the names and the constraint of the error code table, and the open values, each an opaque constant about which
nothing can be proved. The constants R8 fixes (20, 8, 12, 2048, 2031, 17, ...) stand as numerals where the rules use them. -/

namespace Sys2Proof

/-- The thirteen public error codes of R93, in the spec's order. The core produces only `hdrLength`, `hdrMagic`,
`checksum` and `download`. -/
inductive ErrCode where
  | noStorage | storageInit | storageCommit | urlParse | connect | httpHeader | headerParse
  | hdrLength | hdrMagic | checksum | download | hdrTimeout | httpResponse
  deriving DecidableEq, Repr, Inhabited

namespace Config

/-- An admissible numbering of the error codes: R93 asks only that the codes are negative and pairwise distinct. -/
structure ErrTable where
  code : ErrCode → Int
  negative : ∀ e, code e < 0
  distinct : ∀ e e', code e = code e' → e = e'

/-- `MAGIC_DEFAULT` (R9, R21, D26): the value of `magic_cfg` after reset. OPEN: no value may be proved of it. -/
opaque magicDefault : Word

/-- Byte `j` of `DICT_TAIL_INIT` (R150, D11) at the START that makes free draw number `draw`. OPEN: "fresh at each
START" (93_implementation_defined.md U2). -/
opaque dictTailByte (draw j : Nat) : Byte

/-- The value byte `i` of `hdr` holds before it is filled (R28, U6: `any value`), from free draw number `draw`. -/
opaque unfilledHdrByte (draw i : Nat) : Byte

/-- The value of `err` while no rule gives it one (R23, U5: `any value`). -/
opaque deadErr (draw : Nat) : ErrCode

/-- The value of `declared_len` in a dead context (R34, U4: `any value`). -/
opaque deadDeclaredLen (draw : Nat) : Word

/-- The value of `received` in a dead context (R34, U4). -/
opaque deadReceived (draw : Nat) : Nat

/-- The value of `written` in a dead context (R34, U4). -/
opaque deadWritten (draw : Nat) : Nat

/-- The value of `crc` in a dead context (R34, U4). -/
opaque deadCrc (draw : Nat) : Word

/-- The value of `hdr_fill` in a dead context (R34, U4). -/
opaque deadHdrFill (draw : Nat) : Fin 21

/-- The value of `dict` in a dead context (R34, U4). -/
opaque deadDict (draw : Nat) : Vector Byte 2048

/-- The value of `wcur` in a dead context (R34, U4). -/
opaque deadWcur (draw : Nat) : BitVec 11

/-- Bit `j` of `bitq` in a dead context (R34, U4). -/
opaque deadBit (draw j : Nat) : Bool

/-- How many bits `bitq` holds in a dead context (R34, U4), before the bounds of R31 and R35 are put on it. -/
opaque deadBitCount (draw : Nat) : Nat

end Config

end Sys2Proof
end

