-- ==== Sys2Proof/Syntax.lean ====
section
/-! DEFINITION. The syntax of spec/30_encoding.md: the twenty rows of spec/opcode_table.json as one inductive, what the
command port carries (R89, R90), the tokens of the compressed stream (R85, R86) and the results (R92). -/

namespace Sys2Proof

/-- One constructor per row of spec/opcode_table.json: the eight opcodes of the command port (R89), the two tokens of
the LZ unit (R85, R86) and the ten micro-operations of the units, which have no wire encoding. Operand widths are in
the types, so every term is an instruction the spec admits. -/
inductive Instr where
  /-- Opcode `000`, reserved (R194). -/
  | reserved0
  /-- Opcode `001`: CFG_MAGIC `m` (R181). -/
  | cfgMagic (m : Word)
  /-- Opcode `010`: START `n` (R182). -/
  | start (n : Word)
  /-- Opcode `011`: POLL `chunk` (R183). -/
  | poll (chunk : List Byte)
  /-- Opcode `100`: PROGRESS (R191). -/
  | progress
  /-- Opcode `101`: VERIFY (R192). -/
  | verify
  /-- Opcode `110`: RELEASE (R193). -/
  | release
  /-- Opcode `111`, reserved (R194). -/
  | reserved7
  /-- Token `1dddddddd`: literal (R153). -/
  | lit (d : Byte)
  /-- Token `0ooooooooooollll`: back-reference copy; `len` is the encoded length (R154). -/
  | ref (off : BitVec 11) (len : BitVec 4)
  /-- Micro-operation `crc_init` (R111). -/
  | crcInit
  /-- Micro-operation `crc_step` (R112). -/
  | crcStep (c : Word) (b : Byte)
  /-- Micro-operation `crc_update` (R113). -/
  | crcUpdate (c : Word) (bytes : List Byte)
  /-- Micro-operation `crc_final` (R114). -/
  | crcFinal (c : Word)
  /-- Micro-operation `hdr_feed` (R130). -/
  | hdrFeed (bytes : List Byte)
  /-- Micro-operation `hdr_validate` (R133). -/
  | hdrValidate
  /-- Micro-operation `lz_init` (R150); `tail` is `DICT_TAIL_INIT`. -/
  | lzInit (tail : Vector Byte 17)
  /-- Micro-operation `emit` (R151). -/
  | emit (v : Byte)
  /-- Micro-operation `lz_feed_byte` (R152). -/
  | lzFeedByte (b : Byte)
  /-- Micro-operation `lz_feed` (R155). -/
  | lzFeed (bytes : List Byte)
  deriving DecidableEq, Repr

/-- A token of the compressed stream (R16): what the LZ unit executes. -/
inductive Token where
  | lit (d : Byte)
  | ref (off : BitVec 11) (len : BitVec 4)
  deriving DecidableEq, Repr

/-- The instruction a token is. -/
def Token.toInstr : Token → Instr
  | .lit d => .lit d
  | .ref off len => .ref off len

/-- The operand a command carries (R90): nothing, a 32-bit unsigned integer, or a finite byte sequence. -/
inductive Operand where
  | none
  | word (v : Word)
  | chunk (bytes : List Byte)
  deriving DecidableEq, Repr

/-- What the command port carries for one command (R89): the 3-bit opcode and the operand. -/
structure Transaction where
  op : BitVec 3
  operand : Operand
  deriving DecidableEq, Repr

/-- What reaches the core from outside, one item at a time: a command, or an assertion of the optional reset input
(R251), which acts between commands (93_implementation_defined.md U27). -/
inductive PortEvent where
  | command (t : Transaction)
  | reset
  deriving DecidableEq, Repr

/-- The two things that have a wire encoding: a command on the port and a token in the payload's bit sequence. -/
inductive Encoded where
  | command (t : Transaction)
  | token (bits : List Bool)
  deriving DecidableEq, Repr

/-- Why the decoder rejects. -/
inductive DecodeError where
  /-- The operand is not of the kind the opcode takes (R89). -/
  | operandMismatch (op : BitVec 3)
  /-- The bits end before the token's last bit (R87). -/
  | incompleteToken
  /-- Bits are left over after the one token asked for. -/
  | trailingBits
  deriving DecidableEq, Repr

/-- The result of a command (R92). -/
inductive Res where
  | inProgress
  | done
  | count (n : Nat)
  | err (code : ErrCode)
  deriving DecidableEq, Repr

/-- The result of `hdr_validate` (R133). -/
inductive HdrCheck where
  | ok
  | lengthMismatch
  | magicMismatch
  deriving DecidableEq, Repr

/-- The nine bit-fields of the header's version record (R82). -/
structure Version where
  headerVersion : BitVec 6
  compression : BitVec 1
  signature : BitVec 1
  spare : BitVec 4
  payloadTarget : BitVec 4
  payloadMajor : BitVec 8
  payloadMinor : BitVec 8
  payloadPatch : BitVec 8
  payloadBuildNum : BitVec 24
  deriving DecidableEq, Repr

/-- The header record (R81), parsed: "the same final parsed header" of R137 and R138. -/
structure Header where
  length : Word
  crc32 : Word
  magic : Word
  version : Version
  deriving DecidableEq, Repr

end Sys2Proof
end

