-- ==== Sys2Proof/Machine/State.lean ====
section
/-! DEFINITION. The state of the core (10_state.md), the faults and refusals, and the state after reset. -/

namespace Sys2Proof.Machine

/-- The state register `st` (R22, R180). -/
inductive Phase where
  | idle | header | file | completed | magicMismatch | error
  deriving DecidableEq, Repr

/-- What a micro-operation that returns a value hands to its caller (R111 to R114, R130, R133). -/
inductive UnitResult where
  /-- No value has been returned yet. -/
  | none
  /-- A 32-bit checksum or checksum state. -/
  | word (v : Word)
  /-- The number of bytes `hdr_feed` consumed. -/
  | consumed (k : Nat)
  /-- The verdict of `hdr_validate`. -/
  | check (c : HdrCheck)
  deriving DecidableEq, Repr

/-- The pending-bit queue (R20, R31): "a sequence of 0 to 15 bits, oldest first". -/
structure BitQueue where
  bits : List Bool
  short : bits.length ≤ 15
  deriving DecidableEq, Repr

/-- The context of one download (R33): the elements START gives a value and the error states and RELEASE kill. -/
structure Context where
  /-- R24 -/
  declaredLen : Word
  /-- R25 -/
  received : Nat
  /-- R26 -/
  written : Nat
  /-- R27: the unfinalized accumulator. -/
  crc : Word
  /-- R28 -/
  hdr : Vector Byte 20
  /-- R28: 0 to 20. -/
  hdrFill : Fin 21
  /-- R29 -/
  dict : Vector Byte 2048
  /-- R30: 11 bits, so that advancing it is modulo 2048. -/
  wcur : BitVec 11
  /-- R31 -/
  bitq : BitQueue
  deriving DecidableEq, Repr

/-- The machine: the core's eleven elements (R20), the environment's two records and its pending inputs, and two
fields of the model's own. -/
structure State where
  /-- R21 -/
  magicCfg : Word
  /-- R22 -/
  st : Phase
  /-- R23 -/
  err : ErrCode
  /-- R33 -/
  ctx : Context
  /-- The inputs the host has issued and the core has not taken yet, oldest first (R89, R251). -/
  port : List PortEvent
  /-- `out` (R32, R64): every byte passed to `SinkWrite`, in order. -/
  sink : List Byte
  /-- The results the host has received, in order (R92, R266). -/
  results : List Res
  /-- MODEL'S OWN: the value the last micro-operation run as an instruction returned. -/
  unitResult : UnitResult
  /-- MODEL'S OWN: how many times values the spec leaves open have been drawn from Config. -/
  draws : Nat
  deriving DecidableEq, Repr

/-- The core has no fault: its decoder "is total and cannot fault" (R159), no access is out of range or misaligned
(R61, R69), and every command completes (R234). No constructor, so no meaning can raise one: safe. -/
inductive Fault where
  deriving DecidableEq, Repr

/-- Why a step has no meaning. -/
inductive Refusal where
  /-- Raised by `exec` for an instruction without a meaning (none is left): safe, the run stops. -/
  | notModelled (mnemonic : String)
  /-- Raised by `step` alone, for a transaction whose operand is not of the kind the opcode takes, which the port of
  R89 cannot carry: safe, the run stops. -/
  | operandMismatch (op : BitVec 3)
  deriving DecidableEq, Repr

/-- The state after power-on (R39, R250): `st = Idle`, `magic_cfg = MAGIC_DEFAULT`, the sink log empty. Every other
element is unspecified by the spec; its value here is the model's own (DESIGN CHOICE, unsafe:
notes/assumptions/1.md). -/
def State.reset : State where
  magicCfg := Config.magicDefault
  st := .idle
  err := .noStorage
  ctx :=
    { declaredLen := 0, received := 0, written := 0, crc := 0,
      hdr := Vector.replicate 20 0, hdrFill := 0,
      dict := Vector.replicate 2048 0, wcur := 0, bitq := ⟨[], by decide⟩ }
  port := []
  sink := []
  results := []
  unitResult := .none
  draws := 0

end Sys2Proof.Machine
end

