-- ==== Sys2Proof/Machine/Flags.lean ====
section
/-! DEFINITION. The core has no condition-code or flag register (10_state.md R36). The conditions its rules test are
computed here from the state: `header_complete` (R131), "active" (R16), and the completion test (R187). -/

namespace Sys2Proof.Machine

/-- `header_complete` (R131): not stored, the predicate `hdr_fill = 20`. -/
def headerComplete (s : State) : Bool := s.ctx.hdrFill.val == 20

/-- "active" (R16, D3): a context exists and has not been released. -/
def Phase.active : Phase → Bool
  | .header | .file | .completed => true
  | .idle | .magicMismatch | .error => false

/-- A terminal state (R16, R180). -/
def Phase.terminal : Phase → Bool
  | .completed | .magicMismatch | .error => true
  | .idle | .header | .file => false

/-- `received = declared_len` (R187), over the naturals. -/
def exhausted (s : State) : Bool := s.ctx.received == s.ctx.declaredLen.toNat

/-- `received > declared_len` (R187): overrun. -/
def overrun (s : State) : Bool := s.ctx.declaredLen.toNat < s.ctx.received

end Sys2Proof.Machine
end

