-- ==== Sys2Proof/WellFormed.lean ====
section
/-! DEFINITION. Well-formedness. `Instr` needs no check: the widths of R89, R90, R85 and R86 are in its types. What can be
ill-formed is a transaction of the command port, whose operand must be of the kind its opcode takes (R89). -/

namespace Sys2Proof

/-- The operand column of R89's table. A reserved opcode is refused "always" (60_exceptions.md R221, X9), whatever
comes with it. DEDUCED, safe: notes/assumptions/9.md. -/
def operandFits (op : BitVec 3) (x : Operand) : Bool :=
  op == 0b000#3 || op == 0b111#3 ||
    match x with
    | .word _ => op == 0b001#3 || op == 0b010#3
    | .chunk _ => op == 0b011#3
    | .none => op == 0b100#3 || op == 0b101#3 || op == 0b110#3

/-- A transaction the port of R89 can carry. -/
def Transaction.wellFormed (t : Transaction) : Bool := operandFits t.op t.operand

/-- An item that can reach the core: a well-formed transaction, or the reset input. -/
def PortEvent.wellFormed : PortEvent → Bool
  | .command t => t.wellFormed
  | .reset => true

/-- The rows of the opcode table that have a wire encoding: the commands and the tokens. -/
def Instr.encodable : Instr → Bool
  | .reserved0 | .cfgMagic _ | .start _ | .poll _ | .progress | .verify | .release | .reserved7 => true
  | .lit _ | .ref _ _ => true
  | .crcInit | .crcStep _ _ | .crcUpdate _ _ | .crcFinal _ => false
  | .hdrFeed _ | .hdrValidate => false
  | .lzInit _ | .emit _ | .lzFeedByte _ | .lzFeed _ => false

end Sys2Proof
end

