-- ==== Sys2Proof/Decode.lean ====
section
/-! DEFINITION. Decoder and encoder of spec/30_encoding.md: bit sequences (R11), tokens (R84 to R88), commands (R89),
results as integers (R92, R93), and the host's numbering of the opcode table's words. -/

namespace Sys2Proof

/-! ## Bit sequences (R11) -/

/-- The `n`-bit value `v` as a bit sequence, most significant bit first (R66, D8). PRESUMED by the spec, unsafe:
notes/assumptions/14.md. -/
def bitsMsb {n : Nat} (v : BitVec n) : List Bool := (List.range n).map v.getMsbD

/-- `msb8` (R11): the bits of a byte in the order the decoder consumes them. -/
def msb8 (b : Byte) : List Bool := bitsMsb b

/-- `val` (R11): the integer a bit sequence spells, its first bit the most significant. -/
def val (q : List Bool) : Nat := q.foldl (fun a x => 2 * a + x.toNat) 0

/-- The bit sequence `B` of a payload (R84). -/
def payloadBits (bytes : List Byte) : List Bool := bytes.flatMap msb8

/-! ## Tokens -/

/-- Takes the first token off a bit sequence (R87): 9 bits when the first bit is 1, 16 when it is 0; nothing while the
token is incomplete. Every complete pattern is legal (R88). -/
def decodeToken : List Bool → Option (Token × List Bool)
  | [] => none
  | true :: q =>
    if 8 ≤ q.length then some (.lit (BitVec.ofNat 8 (val (q.take 8))), q.drop 8) else none
  | false :: q =>
    if 15 ≤ q.length then
      some (.ref (BitVec.ofNat 11 (val (q.take 11))) (BitVec.ofNat 4 (val ((q.drop 11).take 4))), q.drop 15)
    else none

/-- The bits of a token (R85, R86). -/
def encodeToken : Token → List Bool
  | .lit d => true :: bitsMsb d
  | .ref off len => false :: (bitsMsb off ++ bitsMsb len)

/-- `tokens(B)` and `rest(B)` of R157, cut with at most `fuel` tokens. -/
def cutTokens : Nat → List Bool → List Token × List Bool
  | 0, q => ([], q)
  | fuel + 1, q =>
    match decodeToken q with
    | none => ([], q)
    | some (tok, q') => (tok :: (cutTokens fuel q').1, (cutTokens fuel q').2)

/-- `tokens(B)` (R157): a token takes at least one bit, so `|B|` bounds their number. -/
def tokens (q : List Bool) : List Token := (cutTokens q.length q).1

/-- `rest(B)` (R157): the incomplete tail that `tokens` did not consume. -/
def rest (q : List Bool) : List Bool := (cutTokens q.length q).2

/-! ## Commands -/

/-- The command a transaction stands for (R89), rejected by name where the operand is of another kind. -/
def decodeCommand (t : Transaction) : Except DecodeError Instr :=
  if t.op = 0b000#3 then .ok .reserved0
  else if t.op = 0b111#3 then .ok .reserved7
  else
    match t.operand with
    | .word v =>
      if t.op = 0b001#3 then .ok (.cfgMagic v)
      else if t.op = 0b010#3 then .ok (.start v)
      else .error (.operandMismatch t.op)
    | .chunk bytes =>
      if t.op = 0b011#3 then .ok (.poll bytes) else .error (.operandMismatch t.op)
    | .none =>
      if t.op = 0b100#3 then .ok .progress
      else if t.op = 0b101#3 then .ok .verify
      else if t.op = 0b110#3 then .ok .release
      else .error (.operandMismatch t.op)

/-- The instruction an encoding stands for. A token's bit sequence must hold that one token and nothing else. -/
def decode : Encoded → Except DecodeError Instr
  | .command t => decodeCommand t
  | .token bits =>
    match decodeToken bits with
    | none => .error .incompleteToken
    | some (tok, []) => .ok tok.toInstr
    | some (_, _ :: _) => .error .trailingBits

/-- The encoding of an instruction, written from R85, R86 and R89; the micro-operations have none. -/
def encode : Instr → Option Encoded
  | .reserved0 => some (.command ⟨0b000#3, .none⟩)
  | .cfgMagic m => some (.command ⟨0b001#3, .word m⟩)
  | .start n => some (.command ⟨0b010#3, .word n⟩)
  | .poll bytes => some (.command ⟨0b011#3, .chunk bytes⟩)
  | .progress => some (.command ⟨0b100#3, .none⟩)
  | .verify => some (.command ⟨0b101#3, .none⟩)
  | .release => some (.command ⟨0b110#3, .none⟩)
  | .reserved7 => some (.command ⟨0b111#3, .none⟩)
  | .lit d => some (.token (encodeToken (.lit d)))
  | .ref off len => some (.token (encodeToken (.ref off len)))
  | .crcInit | .crcStep _ _ | .crcUpdate _ _ | .crcFinal _ => none
  | .hdrFeed _ | .hdrValidate => none
  | .lzInit _ | .emit _ | .lzFeedByte _ | .lzFeed _ => none

/-! ## Results as integers -/

/-- The spec's numbers for the error codes (R93, D5). -/
def errNumber : ErrCode → Int
  | .noStorage => -1
  | .storageInit => -2
  | .storageCommit => -3
  | .urlParse => -4
  | .connect => -5
  | .httpHeader => -6
  | .headerParse => -7
  | .hdrLength => -8
  | .hdrMagic => -9
  | .checksum => -10
  | .download => -11
  | .hdrTimeout => -12
  | .httpResponse => -13

/-- The signed integer of a result under a numbering of the error codes (R92). -/
def Res.toInt (table : Config.ErrTable) : Res → Int
  | .inProgress => 0
  | .done => 1
  | .count n => n
  | .err code => table.code code

/-! ## The opcode table's words, numbered as the host numbers them -/

/-- An operand of the kind the opcode takes, every bit of it 0. -/
def zeroOperand (op : BitVec 3) : Operand :=
  if op = 0b001#3 ∨ op = 0b010#3 then .word 0 else if op = 0b011#3 then .chunk [] else .none

/-- The encoding a table word of `nbits` bits stands for. One byte holds a 3-bit opcode. Two bytes hold a token as the
number whose most significant bit is consumed first: a 9-bit LIT where `w` has bit 8 as its highest bit, a 16-bit REF
otherwise (notes/assumptions/8.md). -/
def tableWord (nbits w : Nat) : Option Encoded :=
  if nbits ≤ 8 then
    if w < 8 then some (.command ⟨BitVec.ofNat 3 w, zeroOperand (BitVec.ofNat 3 w)⟩) else none
  else if 16 < nbits then none
  else if 256 ≤ w ∧ w < 512 then some (.token (bitsMsb (BitVec.ofNat 9 w)))
  else if w < 65536 then some (.token (bitsMsb (BitVec.ofNat 16 w)))
  else none

/-- The instruction the decoder reads from a table word. -/
def decodeTableWord (nbits w : Nat) : Option Instr :=
  match tableWord nbits w with
  | none => none
  | some e =>
    match decode e with
    | .ok i => some i
    | .error _ => none

end Sys2Proof
end

