-- ==== Sys2Proof/Machine/Operands.lean ====
section
/-! DEFINITION. How values are assembled from the bytes of the header buffer (20_memory.md R65, R67; 30_encoding.md R81,
R82; 41_header.md R132), the splitting of a chunk (41_header.md R130), and the filling of the bit queue (10_state.md R31). -/

namespace Sys2Proof.Machine

/-- `u32le` (R11, R65, D6): the byte at the lowest offset is the least significant (notes/assumptions/14.md). -/
def u32le (b0 b1 b2 b3 : Byte) : Word := b3 ++ b2 ++ b1 ++ b0

/-- The 64-bit little-endian integer `V` of eight bytes (R65). -/
def u64le (b0 b1 b2 b3 b4 b5 b6 b7 : Byte) : BitVec 64 := b7 ++ b6 ++ b5 ++ b4 ++ b3 ++ b2 ++ b1 ++ b0

/-- `hdr_length` (R132). -/
def hdrLength (h : Vector Byte 20) : Word := u32le h[0] h[1] h[2] h[3]

/-- `hdr_crc32` (R132). -/
def hdrCrc32 (h : Vector Byte 20) : Word := u32le h[4] h[5] h[6] h[7]

/-- `hdr_magic` (R132). -/
def hdrMagic (h : Vector Byte 20) : Word := u32le h[8] h[9] h[10] h[11]

/-- `hdr_version_bytes` as the integer `V` (R132, R65). -/
def hdrVersion (h : Vector Byte 20) : BitVec 64 := u64le h[12] h[13] h[14] h[15] h[16] h[17] h[18] h[19]

/-- The bit-fields of `V` (R82), allocated from bit 0 upward (R67, D7). PRESUMED by the spec, unsafe:
notes/assumptions/14.md. -/
def versionFields (v : BitVec 64) : Version where
  headerVersion := v.extractLsb' 0 6
  compression := v.extractLsb' 6 1
  signature := v.extractLsb' 7 1
  spare := v.extractLsb' 8 4
  payloadTarget := v.extractLsb' 12 4
  payloadMajor := v.extractLsb' 16 8
  payloadMinor := v.extractLsb' 24 8
  payloadPatch := v.extractLsb' 32 8
  payloadBuildNum := v.extractLsb' 40 24

/-- The header record read from the buffer (R81, R137): "explicit big/little-endian-aware field extraction". -/
def parseHeader (h : Vector Byte 20) : Header where
  length := hdrLength h
  crc32 := hdrCrc32 h
  magic := hdrMagic h
  version := versionFields (hdrVersion h)

/-- `hdr[8..19]`: the 12 header bytes the checksum covers (R118, R134). -/
def hdrCovered (h : Vector Byte 20) : List Byte := h.toList.drop 8

/-- The queue that holds the bits `q`. Its room is 15 bits (R31); no rule stores more (lemma `lzFeedByte_cases`). -/
def BitQueue.ofBits (q : List Bool) : BitQueue where
  bits := q.take 15
  short := by rw [List.length_take]; exact Nat.min_le_left _ _

/-- `k = min(|s|, 20 - hdr_fill)` (R130): how many bytes of a chunk the header buffer still takes. -/
def hdrRoom (fill : Fin 21) (bytes : List Byte) : Nat := min bytes.length (20 - fill.val)

end Sys2Proof.Machine
end

