-- ==== Sys2Proof/Machine/Ops.lean ====
section
/-! DEFINITION. The primitives every rule uses (00_scope.md R12): dictionary and sink access, results, refusals, entry to an
error state (60_exceptions.md R224), and the reset input (70_reset_and_hazards.md R251). -/

namespace Sys2Proof.Machine

/-! ## The dictionary and the sink -/

/-- `DictRead(i)` (R12, R61): one byte, the index reduced modulo 2048. -/
def dictRead (i : Nat) (s : State) : Byte := s.ctx.dict[i % 2048]'(Nat.mod_lt i (by decide))

/-- `DictWrite(i, v)` (R12, R61). -/
def dictWrite (i : Nat) (v : Byte) (s : State) : State :=
  { s with ctx := { s.ctx with dict := s.ctx.dict.set (i % 2048) v (Nat.mod_lt i (by decide)) } }

/-- `SinkWrite(v)` (R12, R64): appends a byte to `out`; it cannot fail or stall. -/
def sinkWrite (v : Byte) (s : State) : State := { s with sink := s.sink ++ [v] }

/-! ## Writes of one element -/

/-- `st <- S` (R12). -/
def setPhase (p : Phase) (s : State) : State := { s with st := p }

/-- `crc <- c` (R12). -/
def setCrc (c : Word) (s : State) : State := { s with ctx := { s.ctx with crc := c } }

/-- `bitq <- q` (R12). -/
def setBitq (q : List Bool) (s : State) : State := { s with ctx := { s.ctx with bitq := .ofBits q } }

/-- `received <- received + k` (R184, R186). -/
def countReceived (k : Nat) (s : State) : State :=
  { s with ctx := { s.ctx with received := s.ctx.received + k } }

/-! ## Results -/

/-- `result X` (R12, R92): the host receives `X`. -/
def answer (r : Res) (s : State) : State := { s with results := s.results ++ [r] }

/-- `refuse(code)` (R12, R220): no element of the core changes, the result is `Err(code)`. -/
def refuse (code : ErrCode) (s : State) : State := answer (.err code) s

/-- A micro-operation hands its value to its caller. DESIGN CHOICE, safe: notes/assumptions/6.md. -/
def yieldUnit (r : UnitResult) (s : State) : State := { s with unitResult := r }

/-! ## Death of the context -/

/-- `hdr` before any byte of it is filled: unspecified (R28, R40). DESIGN CHOICE, safe: notes/assumptions/18.md. -/
def unfilledHdr (draw : Nat) : Vector Byte 20 := Vector.ofFn fun i => Config.unfilledHdrByte draw i.val

/-- `bitq` in a dead context: open, but still a queue of the bits of a token "that is not yet complete" (R31), at most 8
after a leading 1 and at most 15 otherwise (R35: "after every command"). -/
def deadQueue (draw : Nat) : BitQueue :=
  let room := if Config.deadBit draw 0 then 9 else 16
  .ofBits ((List.range (Config.deadBitCount draw % room)).map (Config.deadBit draw))

/-- A dead context (R34): every element is unspecified. DESIGN CHOICE, safe: notes/assumptions/2.md. -/
def deadContext (draw : Nat) : Context where
  declaredLen := Config.deadDeclaredLen draw
  received := Config.deadReceived draw
  written := Config.deadWritten draw
  crc := Config.deadCrc draw
  hdr := unfilledHdr draw
  hdrFill := Config.deadHdrFill draw
  dict := Config.deadDict draw
  wcur := Config.deadWcur draw
  bitq := deadQueue draw

/-- The context dies (R33, R224). -/
def dropContext (s : State) : State := { s with ctx := deadContext s.draws, draws := s.draws + 1 }

/-! ## Error-state entry, and the ways out -/

/-- The error state a code enters (R12, R224). -/
def errorPhase (code : ErrCode) : Phase := if code = .hdrMagic then .magicMismatch else .error

/-- `raise E(code)` (R12, R224): `st` and `err` record the failure, the context dies, the command ends with
`Err(code)`. `magic_cfg` and the sink log are untouched. There is no return from it (R227): only `release`, START and
the reset input leave an error state. -/
def raise (code : ErrCode) (s : State) : State :=
  answer (.err code) { dropContext s with st := errorPhase code, err := code }

/-- RELEASE's teardown (R193): `st <- Idle`, the context and `err` become dead; "Idle included (no effect beyond the
result)". -/
def teardown (s : State) : State :=
  match s.st with
  | .idle => s
  | _ => { dropContext s with st := .idle, err := Config.deadErr s.draws }

/-- The reset input (R250, R251): as RELEASE, and `magic_cfg` returns to `MAGIC_DEFAULT`. The sink log and the results
already given are the observer's and stay. That the input exists is a DESIGN CHOICE: notes/assumptions/7.md. -/
def resetInput (s : State) : State :=
  { dropContext s with st := .idle, err := Config.deadErr s.draws, magicCfg := Config.magicDefault }

end Sys2Proof.Machine
end

