-- ==== Sys2Proof/Machine/Crc.lean ====
section
/-! DEFINITION. The CRC unit (40_crc.md) and its four micro-operations. They are pure functions of their operands: the
accumulator `crc` is written by the commands that call them. -/

namespace Sys2Proof.Machine

/-- The polynomial of CRC-32/ISO-HDLC in bit-reversed form (R110, D13). PRESUMED by the spec, unsafe:
notes/assumptions/13.md. -/
def crcPoly : Word := 0xEDB88320#32

/-- `crc_init()` (R111). -/
def crcSeed : Word := 0xFFFFFFFF#32

/-- One pass of the loop of R112. -/
def crcShift (c : Word) : Word :=
  if c.getLsbD 0 then (c >>> 1) ^^^ crcPoly else c >>> 1

/-- `n` passes of the loop of R112. -/
def crcLoop : Nat → Word → Word
  | 0, c => c
  | n + 1, c => crcLoop n (crcShift c)

/-- `crc_step` (R112): the update for one byte. -/
def crcStep (c : Word) (b : Byte) : Word := crcLoop 8 (c ^^^ b.setWidth 32)

/-- `crc_update` (R113): the fold of `crc_step` from the left. -/
def crcUpdate (c : Word) (bytes : List Byte) : Word := bytes.foldl crcStep c

/-- `crc_final` (R114): bitwise complement. -/
def crcFinal (c : Word) : Word := ~~~c

/-- Entry `i` of the table of R116, defined by the loop. -/
def crcTable (i : Byte) : Word := crcLoop 8 (i.setWidth 32)

/-- `crc_init` as an instruction (R111). -/
def execCrcInit (s : State) : Host.Outcome State Fault Refusal := .next (yieldUnit (.word crcSeed) s)

/-- `crc_step` as an instruction (R112). -/
def execCrcStep (c : Word) (b : Byte) (s : State) : Host.Outcome State Fault Refusal :=
  .next (yieldUnit (.word (crcStep c b)) s)

/-- `crc_update` as an instruction (R113). -/
def execCrcUpdate (c : Word) (bytes : List Byte) (s : State) : Host.Outcome State Fault Refusal :=
  .next (yieldUnit (.word (crcUpdate c bytes)) s)

/-- `crc_final` as an instruction (R114). -/
def execCrcFinal (c : Word) (s : State) : Host.Outcome State Fault Refusal :=
  .next (yieldUnit (.word (crcFinal c)) s)

end Sys2Proof.Machine
end

