-- ==== Sys2Proof/Machine/Hdr.lean ====
section
/-! DEFINITION. The HDR unit (41_header.md): incremental fill, validation, and the checksum feed at completion. -/

namespace Sys2Proof.Machine

/-- The copy loop of R130: bytes land in order from index `i`; an index past 19 stores nothing, so the buffer "never
overflows". -/
def hdrCopy : List Byte → Nat → Vector Byte 20 → Vector Byte 20
  | [], _, h => h
  | b :: bytes, i, h => hdrCopy bytes (i + 1) (h.setIfInBounds i b)

/-- The state after `hdr_feed` (R130); the number of bytes consumed is `hdrRoom`. -/
def hdrFeed (bytes : List Byte) (s : State) : State :=
  let k := hdrRoom s.ctx.hdrFill bytes
  { s with ctx :=
    { s.ctx with
      hdr := hdrCopy (bytes.take k) s.ctx.hdrFill.val s.ctx.hdr
      hdrFill := ⟨s.ctx.hdrFill.val + k, by unfold k hdrRoom; omega⟩ } }

/-- `hdr_validate` (R133): the length check, over the naturals, then the magic check. -/
def hdrValidate (s : State) : HdrCheck :=
  if (hdrLength s.ctx.hdr).toNat + 8 ≠ s.ctx.declaredLen.toNat then .lengthMismatch
  else if hdrMagic s.ctx.hdr ≠ s.magicCfg then .magicMismatch
  else .ok

/-- The checksum feed of R134: the 12 bytes `hdr[8..19]`. -/
def feedHeaderCrc (s : State) : State := setCrc (crcUpdate s.ctx.crc (hdrCovered s.ctx.hdr)) s

/-- `hdr_feed` as an instruction (R130). -/
def execHdrFeed (bytes : List Byte) (s : State) : Host.Outcome State Fault Refusal :=
  .next (yieldUnit (.consumed (hdrRoom s.ctx.hdrFill bytes)) (hdrFeed bytes s))

/-- `hdr_validate` as an instruction (R133). -/
def execHdrValidate (s : State) : Host.Outcome State Fault Refusal :=
  .next (yieldUnit (.check (hdrValidate s)) s)

end Sys2Proof.Machine
end

