-- ==== Sys2Proof/Machine/Lz.lean ====
section
/-! DEFINITION. The LZ unit (42_lzss.md): initialisation, `emit`, the two tokens, and the feeding of payload bytes. -/

namespace Sys2Proof.Machine

/-- The byte the dictionary is seeded with (R150, D12). PRESUMED by the spec, unsafe: notes/assumptions/15.md. -/
def space : Byte := 0x20#8

/-- `wcur` at START (R150, D9). PRESUMED by the spec, unsafe: notes/assumptions/15.md. -/
def initialCursor : BitVec 11 := 2031#11

/-- The dictionary at START (R150): 2031 spaces, then the 17 bytes of `DICT_TAIL_INIT`. -/
def seededDict (tail : Vector Byte 17) : Vector Byte 2048 where
  toArray := (List.replicate 2031 space ++ tail.toList).toArray
  size_toArray := by
    rw [List.size_toArray, List.length_append, List.length_replicate, Vector.length_toList]

/-- `DICT_TAIL_INIT` of a START: open, fresh at each one (D11, 93_implementation_defined.md U2). DESIGN CHOICE, safe:
notes/assumptions/3.md. -/
def dictTailInit (draw : Nat) : Vector Byte 17 := Vector.ofFn fun j => Config.dictTailByte draw j.val

/-- `lz_init` (R150). -/
def lzInit (tail : Vector Byte 17) (s : State) : State :=
  { s with ctx := { s.ctx with dict := seededDict tail, wcur := initialCursor, bitq := .ofBits [] } }

/-- The cursor and the count after a byte is stored (R151). -/
def advance (s : State) : State :=
  { s with ctx := { s.ctx with wcur := s.ctx.wcur + 1, written := s.ctx.written + 1 } }

/-- `emit(v)` (R151): the one way a byte leaves the decoder. -/
def emit (v : Byte) (s : State) : State := sinkWrite v (advance (dictWrite s.ctx.wcur.toNat v s))

/-- The loop of R154: `n` iterations from dictionary index `i`, each read seeing every earlier write. -/
def copyBytes : Nat → Nat → State → State
  | 0, _, s => s
  | n + 1, i, s => copyBytes n (i + 1) (emit (dictRead i s) s)

/-- The effect of a completed token (R153, R154): a REF copies `len + 2` bytes from the absolute index `off`
(D10; PRESUMED by the spec, unsafe: notes/assumptions/16.md). -/
def runToken : Token → State → State
  | .lit d, s => emit d s
  | .ref off len, s => copyBytes (len.toNat + 2) off.toNat s

/-- `lz_feed_byte` (R152): append eight bits, execute at most one token. -/
def lzFeedByte (b : Byte) (s : State) : State :=
  match decodeToken (s.ctx.bitq.bits ++ msb8 b) with
  | some (tok, q) => runToken tok (setBitq q s)
  | none => setBitq (s.ctx.bitq.bits ++ msb8 b) s

/-- `lz_feed` (R155). -/
def lzFeed (bytes : List Byte) (s : State) : State := bytes.foldl (fun s b => lzFeedByte b s) s

/-- LIT (R153). -/
def execLit (d : Byte) (s : State) : Host.Outcome State Fault Refusal := .next (runToken (.lit d) s)

/-- REF (R154). -/
def execRef (off : BitVec 11) (len : BitVec 4) (s : State) : Host.Outcome State Fault Refusal :=
  .next (runToken (.ref off len) s)

/-- `lz_init` as an instruction (R150). -/
def execLzInit (tail : Vector Byte 17) (s : State) : Host.Outcome State Fault Refusal := .next (lzInit tail s)

/-- `emit` as an instruction (R151). -/
def execEmit (v : Byte) (s : State) : Host.Outcome State Fault Refusal := .next (emit v s)

/-- `lz_feed_byte` as an instruction (R152). -/
def execLzFeedByte (b : Byte) (s : State) : Host.Outcome State Fault Refusal := .next (lzFeedByte b s)

/-- `lz_feed` as an instruction (R155). -/
def execLzFeed (bytes : List Byte) (s : State) : Host.Outcome State Fault Refusal := .next (lzFeed bytes s)

end Sys2Proof.Machine
end

