-- ==== Sys2Proof/Machine/Fsm.lean ====
section
/-! DEFINITION. The FSM unit and the host commands (43_fsm_commands.md). Each command is one atomic step (R71) and ends with
one result (R92); a refused command changes nothing else (R220). -/

namespace Sys2Proof.Machine

/-! ## Configuration and lifecycle -/

/-- A reserved opcode (R194): `refuse(ERR_DOWNLOAD)` in every state. -/
def reservedOpcode (s : State) : State := refuse .download s

/-- Opcode 0 (R194). -/
def execReserved0 (s : State) : Host.Outcome State Fault Refusal := .next (reservedOpcode s)

/-- Opcode 7 (R194). -/
def execReserved7 (s : State) : Host.Outcome State Fault Refusal := .next (reservedOpcode s)

/-- CFG_MAGIC `m` (R181): refused while a context is live. -/
def execCfgMagic (m : Word) (s : State) : Host.Outcome State Fault Refusal :=
  .next (if s.st.active then refuse .download s else answer .done { s with magicCfg := m })

/-- The context START creates (R182, R40), less what `lz_init` sets. -/
def openContext (n : Word) (s : State) : State :=
  { s with
    st := .header
    err := Config.deadErr s.draws
    draws := s.draws + 1
    ctx :=
      { s.ctx with
        declaredLen := n, received := 0, written := 0, crc := crcSeed,
        hdr := unfilledHdr s.draws, hdrFill := 0 } }

/-- START `n` (R182): refused while a context is live. -/
def execStart (n : Word) (s : State) : Host.Outcome State Fault Refusal :=
  .next (if s.st.active then refuse .download s
    else answer (.count n.toNat) (lzInit (dictTailInit s.draws) (openContext n s)))

/-- RELEASE (R193): always `Done`. -/
def execRelease (s : State) : Host.Outcome State Fault Refusal := .next (answer .done (teardown s))

/-! ## POLL -/

/-- One payload byte (R186): into the checksum and into the decoder. -/
def routeByte (b : Byte) (s : State) : State := lzFeedByte b (setCrc (crcStep s.ctx.crc b) s)

/-- The loop of R186: "Every byte of `s` is processed". -/
def routeBytes (bytes : List Byte) (s : State) : State := bytes.foldl (fun s b => routeByte b s) s

/-- `completion_check` (R187). -/
def completionCheck (s : State) : State :=
  if exhausted s then answer .done (setPhase .completed s)
  else if overrun s then raise .download s
  else answer .inProgress s

/-- `poll_file` (R186). -/
def pollFile (bytes : List Byte) (s : State) : State :=
  completionCheck (countReceived bytes.length (routeBytes bytes s))

/-- `header_done` (R185): the checksum feed, the two checks, and on success the rest of the chunk as payload. -/
def headerDone (rest : List Byte) (s : State) : State :=
  let s1 := feedHeaderCrc s
  match hdrValidate s1 with
  | .lengthMismatch => raise .hdrLength s1
  | .magicMismatch => raise .hdrMagic s1
  | .ok => pollFile rest (setPhase .file s1)

/-- `poll_header` (R184). -/
def pollHeader (chunk : List Byte) (s : State) : State :=
  let k := hdrRoom s.ctx.hdrFill chunk
  let s1 := countReceived k (hdrFeed chunk s)
  if headerComplete s1 then headerDone (chunk.drop k) s1 else answer .inProgress s1

/-- POLL `chunk` (R183): dispatch on `st`. -/
def poll (chunk : List Byte) (s : State) : State :=
  match s.st with
  | .idle => refuse .download s
  | .completed => answer .done s
  | .magicMismatch => answer (.err s.err) s
  | .error => answer (.err s.err) s
  | .header => pollHeader chunk s
  | .file => pollFile chunk s

/-- POLL `chunk` (R183). -/
def execPoll (chunk : List Byte) (s : State) : Host.Outcome State Fault Refusal := .next (poll chunk s)

/-! ## Read-only commands -/

/-- The result of PROGRESS (R191). -/
def progressResult (s : State) : Res :=
  match s.st with
  | .idle => .err .download
  | .header | .file | .completed => .count s.ctx.written
  | .magicMismatch | .error => .err s.err

/-- PROGRESS (R191). -/
def execProgress (s : State) : Host.Outcome State Fault Refusal := .next (answer (progressResult s) s)

/-- The result of VERIFY (R192): in Completed the comparison of R119, the sole acceptance gate. -/
def verifyResult (s : State) : Res :=
  match s.st with
  | .idle | .header | .file => .err .download
  | .magicMismatch | .error => .err s.err
  | .completed => if crcFinal s.ctx.crc = hdrCrc32 s.ctx.hdr then .done else .err .checksum

/-- VERIFY (R192). -/
def execVerify (s : State) : Host.Outcome State Fault Refusal := .next (answer (verifyResult s) s)

end Sys2Proof.Machine
end

