-- ==== Sys2Proof/Machine/Dispatch.lean ====
section
/-! DEFINITION. One arm per row of spec/opcode_table.json. -/

namespace Sys2Proof.Machine

def exec (i : Instr) (s : State) : Host.Outcome State Fault Refusal :=
  match i with
  | .reserved0 => Sys2Proof.Machine.execReserved0 s
  | .cfgMagic m => Sys2Proof.Machine.execCfgMagic m s
  | .start n => Sys2Proof.Machine.execStart n s
  | .poll chunk => Sys2Proof.Machine.execPoll chunk s
  | .progress => Sys2Proof.Machine.execProgress s
  | .verify => Sys2Proof.Machine.execVerify s
  | .release => Sys2Proof.Machine.execRelease s
  | .reserved7 => Sys2Proof.Machine.execReserved7 s
  | .lit d => Sys2Proof.Machine.execLit d s
  | .ref off len => Sys2Proof.Machine.execRef off len s
  | .crcInit => Sys2Proof.Machine.execCrcInit s
  | .crcStep c b => Sys2Proof.Machine.execCrcStep c b s
  | .crcUpdate c bytes => Sys2Proof.Machine.execCrcUpdate c bytes s
  | .crcFinal c => Sys2Proof.Machine.execCrcFinal c s
  | .hdrFeed bytes => Sys2Proof.Machine.execHdrFeed bytes s
  | .hdrValidate => Sys2Proof.Machine.execHdrValidate s
  | .lzInit tail => Sys2Proof.Machine.execLzInit tail s
  | .emit v => Sys2Proof.Machine.execEmit v s
  | .lzFeedByte b => Sys2Proof.Machine.execLzFeedByte b s
  | .lzFeed bytes => Sys2Proof.Machine.execLzFeed bytes s

end Sys2Proof.Machine
end

