-- ==== Sys2Proof/Machine/Fetch.lean ====
section
/-! DEFINITION. Where the next step comes from: the command port (R89). The core takes one input at a time and is idle when
there is none (R7, R234). Also the placing of one instruction there. -/

namespace Sys2Proof.Machine

/-- The input the next step takes, and the state without it. -/
def fetch (s : State) : Option (PortEvent × State) :=
  match s.port with
  | [] => none
  | e :: later => some (e, { s with port := later })

/-- One transaction: the decoded command runs; what the decoder rejects is refused by name. -/
def serveCommand (t : Transaction) (s : State) : Host.Outcome State Fault Refusal :=
  match decodeCommand t with
  | .ok i => exec i s
  | .error _ => .refused (.operandMismatch t.op)

/-- One input: a command, or the reset input (R251). -/
def serve (e : PortEvent) (s : State) : Host.Outcome State Fault Refusal :=
  match e with
  | .command t => serveCommand t s
  | .reset => .next (resetInput s)

/-- An input placed in front of the port. -/
def placeEvent (e : PortEvent) (s : State) : State := { s with port := e :: s.port }

/-- A token placed so that the next step executes it: a token runs inside the POLL, in state File, that delivers its
last bits (R152, R186). All its bits but the last eight are pending, the last eight are the chunk, and the download is
far from its declared length. DESIGN CHOICE, safe: notes/assumptions/8.md. -/
def placeToken (bits : List Bool) (s : State) : State :=
  let early := bits.length - 8
  placeEvent (.command ⟨0b011#3, .chunk [BitVec.ofNat 8 (val (bits.drop early))]⟩)
    { s with
      st := .file
      ctx := { s.ctx with bitq := .ofBits (bits.take early), received := 20, declaredLen := 0xFFFFFFFF#32 } }

/-- The encoding placed where the next step takes its input. -/
def placeEncoded (e : Encoded) (s : State) : State :=
  match e with
  | .command t => placeEvent (.command t) s
  | .token bits => placeToken bits s

end Sys2Proof.Machine
end

