-- ==== Sys2Proof/Machine/Step.lean ====
section
/-! DEFINITION. One step (R3, R7): the core performs one whole input as one atomic step; with no input nothing happens. -/

namespace Sys2Proof.Machine

/-- One step of the machine. -/
def step (s : State) : Host.Outcome State Fault Refusal :=
  match fetch s with
  | none => .next s
  | some (e, s') => serve e s'

/-- `s` with the instruction of a table word stored where `step` takes its next input. -/
def State.withFetchWord (s : State) (nbits w : Nat) : State :=
  match tableWord nbits w with
  | some e => placeEncoded e s
  | none => s

end Sys2Proof.Machine
end

