-- ==== Sys2Proof/Safety.lean ====
section
/-! DEFINITION. The terms claims are stated in: the invariants of 10_state.md R35, the relation between dictionary and
output (42_lzss.md R163), which elements are dead (10_state.md R34), and a download as a sequence of POLLs. -/

namespace Sys2Proof.Machine

/-- The pending bits hold no complete token (R35): at most 8 bits after a leading 1, at most 15 otherwise. -/
def pendingOnly (q : List Bool) : Prop := q.length ≤ 15 ∧ (q.head? = some true → q.length ≤ 8)

/-- R163: byte `j` of this download's output, while it is in the window, stands at dictionary index `2031 + j`; every
index not written yet holds its `lz_init` value. The sink log of this download is the last `written` bytes of `sink`. -/
structure DictMatches (tail : Vector Byte 17) (s : State) : Prop where
  logged : s.ctx.written ≤ s.sink.length
  window : ∀ j, j < s.ctx.written → s.ctx.written ≤ j + 2048 →
    s.sink[s.sink.length - s.ctx.written + j]? = some (dictRead (2031 + j) s)
  untouched : ∀ i, (∀ j, j < s.ctx.written → (2031 + j) % 2048 ≠ i % 2048) →
    dictRead i s = (seededDict tail)[i % 2048]'(Nat.mod_lt i (by decide))

/-- The invariants "that hold after every command" (R35), with the stored error of R34 and the dictionary of R163. -/
structure State.Inv (s : State) : Prop where
  header : s.st = .header → s.ctx.hdrFill.val < 20 ∧ s.ctx.received = s.ctx.hdrFill.val ∧ s.ctx.written = 0 ∧
    s.ctx.crc = 0xFFFFFFFF#32 ∧ s.ctx.wcur = 2031#11 ∧ s.ctx.bitq.bits = []
  file : s.st = .file → s.ctx.hdrFill.val = 20 ∧ 20 ≤ s.ctx.received ∧ s.ctx.received < s.ctx.declaredLen.toNat ∧
    (hdrLength s.ctx.hdr).toNat + 8 = s.ctx.declaredLen.toNat ∧ hdrMagic s.ctx.hdr = s.magicCfg
  completed : s.st = .completed → s.ctx.hdrFill.val = 20 ∧ s.ctx.received = s.ctx.declaredLen.toNat ∧
    20 ≤ s.ctx.received
  queue : pendingOnly s.ctx.bitq.bits
  cursor : s.st.active = true → s.ctx.wcur.toNat = (2031 + s.ctx.written) % 2048
  expansion : s.st = .file ∨ s.st = .completed → s.ctx.written ≤ 17 * (s.ctx.received - 20)
  dictionary : s.st.active = true → ∃ tail, DictMatches tail s
  magicError : s.st = .magicMismatch → s.err = .hdrMagic
  otherError : s.st = .error → s.err = .hdrLength ∨ s.err = .download

/-- The two states agree on every element that holds a defined value (R34's table), on the environment's inputs and
records, and on the number of open values drawn. What is dead may differ: the context outside a download, `err`
outside the error states, `hdr[i]` for `i >= hdr_fill`, and the decoder's elements in Completed, "defined but never
read again". -/
structure State.Agree (s t : State) : Prop where
  st : s.st = t.st
  magicCfg : s.magicCfg = t.magicCfg
  port : s.port = t.port
  sink : s.sink = t.sink
  results : s.results = t.results
  draws : s.draws = t.draws
  err : s.st = .magicMismatch ∨ s.st = .error → s.err = t.err
  stream : s.st.active = true → s.ctx.declaredLen = t.ctx.declaredLen ∧ s.ctx.received = t.ctx.received ∧
    s.ctx.written = t.ctx.written ∧ s.ctx.crc = t.ctx.crc ∧ s.ctx.hdrFill = t.ctx.hdrFill
  hdr : s.st.active = true → ∀ i : Fin 20, i.val < s.ctx.hdrFill.val → s.ctx.hdr[i] = t.ctx.hdr[i]
  decoder : s.st = .header ∨ s.st = .file →
    s.ctx.dict = t.ctx.dict ∧ s.ctx.wcur = t.ctx.wcur ∧ s.ctx.bitq = t.ctx.bitq

/-- The POLLs of one download, in order (R63, R197). -/
def pollAll : List (List Byte) → State → State
  | [], s => s
  | c :: cs, s =>
    match exec (.poll c) s with
    | .next t => pollAll cs t
    | .fault _ => s
    | .refused _ => s

/-- What a host sees (R14, R266): the results and the sink log. -/
def State.observed (s : State) : List Res × List Byte := (s.results, s.sink)

/-- "the host may release the transport as soon as a POLL returns anything other than `InProgress`" (R198). -/
def mayReleaseTransport (r : Res) : Bool := r ≠ .inProgress

end Sys2Proof.Machine
end

