-- ==== Sys2Proof/Certificates/Slice0/Obligations.lean ====
section
/-! DEFINITION. The statements about the core, from the numbered rules of spec/. Where a clause rests on a choice of the
spec marked "general knowledge" or "derived", or on a choice of the model, the docstring says so. -/

open Sys2Proof Sys2Proof.Machine

/-! ## Reset and the step -/

/-- R250: the two elements that power-on and the reset input give a value. `MAGIC_DEFAULT` is open; nothing is said of
its value, nor of any other element. -/
def Obligations.ResetIsIdleWithDefaultMagic : Prop :=
  State.reset.st = .idle ∧ State.reset.magicCfg = Config.magicDefault ∧
    ∀ s, (resetInput s).st = .idle ∧ (resetInput s).magicCfg = Config.magicDefault

/-- The invariants of 10_state.md section 2 hold after reset. -/
def Obligations.ResetSatisfiesInvariant : Prop := State.reset.Inv

/-- The invariants "that hold after every command" (10_state.md section 2), with the dictionary/output relation of
42_lzss.md section 5: every step from every state that has them keeps them, reset input included. -/
def Obligations.StepKeepsInvariant : Prop := ∀ s t, s.Inv → step s = .next t → t.Inv

/-- 10_state.md section 2: nothing depends on a dead element. From the invariant, two states that agree on all that is
defined step alike, to states that agree again. -/
def Obligations.DeadStateIsNeverRead : Prop :=
  ∀ s t, s.Inv → s.Agree t →
    (∀ s', step s = .next s' → ∃ t', step t = .next t' ∧ s'.Agree t') ∧
    (∀ r, step s = .refused r → step t = .refused r)

/-- One step performs the whole command in front of the port, and with no input it changes nothing ("Between commands
the core is simply idle"). That inputs wait in a list in the state is the model's own framing
(notes/assumptions/5.md). -/
def Obligations.StepRunsDecodedCommand : Prop :=
  ∀ s, (∀ tr later i, s.port = .command tr :: later → decodeCommand tr = .ok i →
      step s = exec i { s with port := later }) ∧
    (s.port = [] → step s = .next s)

/-- "A command always completes": a step answers a next state whenever the input in front of the port is well-formed. -/
def Obligations.StepNeverStops : Prop :=
  ∀ s, (∀ e, s.port.head? = some e → e.wellFormed = true) → ∃ t, step s = .next t

/-- The reset input of R251, optional in the spec and present in the model (notes/assumptions/7.md). The clauses
`t.results = s.results` and `t.port = later`, that the results already given and the commands already issued survive it,
are the model's choice too (the same entry; unsafe). -/
def Obligations.ResetInputForgetsDownload : Prop :=
  ∀ s later, s.port = .reset :: later → ∃ t, step s = .next t ∧
    t.st = .idle ∧ t.magicCfg = Config.magicDefault ∧ t.sink = s.sink ∧ t.results = s.results ∧ t.port = later

/-! ## Encodings -/

/-- Every instruction that has an encoding is read back from it, with every operand at every value. -/
def Obligations.DecodeReadsBackEncode : Prop :=
  ∀ i, i.encodable = true → ∃ e, encode i = some e ∧ decode e = .ok i

/-- No bit of a token is dropped: the bits the decoder takes off a sequence are the encoding of the token it answers,
and the rest is what follows them. -/
def Obligations.DecodedTokenSpellsItsBits : Prop :=
  ∀ q tok rest, decodeToken q = some (tok, rest) → q = encodeToken tok ++ rest

/-- R87: the first bit decides the length, and a token completes exactly when that many bits are there. -/
def Obligations.TokenCompleteExactlyAtItsLength : Prop :=
  ∀ q, ((decodeToken q).isSome = true ↔
      (9 ≤ q.length ∧ q.head? = some true) ∨ (16 ≤ q.length ∧ q.head? = some false)) ∧
    ∀ tok rest, decodeToken q = some (tok, rest) →
      q.length = (if q.head? = some true then 9 else 16) + rest.length

/-- A few words written out from R85, R86 and R89. -/
def Obligations.WrittenOutWordsDecode : Prop :=
  decode (.command ⟨0b001#3, .word 0x45535033#32⟩) = .ok (.cfgMagic 0x45535033#32) ∧
  decode (.command ⟨0b011#3, .chunk [0xA0#8]⟩) = .ok (.poll [0xA0#8]) ∧
  decode (.token [true, false, true, false, false, false, false, false, true]) = .ok (.lit 0x41#8) ∧
  decode (.token [false, true, true, true, true, true, true, false, true, true, true, true, false, false, true, false])
    = .ok (.ref 2031#11 2#4)

/-- R93: the codes are negative and pairwise distinct. -/
def Obligations.ErrorCodesNegativeAndDistinct : Prop :=
  (∀ e, errNumber e < 0) ∧ ∀ e e', errNumber e = errNumber e' → e = e'

/-- R92, for every admissible numbering of the error codes: "The numeric encoding is injective per command". The four
lines are the results of POLL and VERIFY, of START and PROGRESS, and of CFG_MAGIC and RELEASE. -/
def Obligations.ResultNumbersInjectivePerCommand : Prop :=
  ∀ table : Config.ErrTable,
    (∀ c, Res.toInt table .inProgress ≠ Res.toInt table .done ∧ Res.toInt table .inProgress ≠ Res.toInt table (.err c) ∧
      Res.toInt table .done ≠ Res.toInt table (.err c)) ∧
    (∀ c c', Res.toInt table (.err c) = Res.toInt table (.err c') → c = c') ∧
    (∀ n n', Res.toInt table (.count n) = Res.toInt table (.count n') → n = n') ∧
    (∀ n c, Res.toInt table (.count n) ≠ Res.toInt table (.err c))

/-! ## Commands -/

/-- R194: opcodes 0 and 7 are refused in every state and change nothing else. -/
def Obligations.ReservedOpcodesAreRefused : Prop :=
  ∀ s, exec .reserved0 s = .next { s with results := s.results ++ [.err .download] } ∧
    exec .reserved7 s = .next { s with results := s.results ++ [.err .download] }

/-- R181: CFG_MAGIC is refused while a context is live, and writes `magic_cfg` and nothing else otherwise. -/
def Obligations.CfgMagicWritesOnlyWhileInactive : Prop :=
  ∀ m s,
    (s.st = .header ∨ s.st = .file ∨ s.st = .completed →
      exec (.cfgMagic m) s = .next { s with results := s.results ++ [.err .download] }) ∧
    (s.st = .idle ∨ s.st = .magicMismatch ∨ s.st = .error →
      exec (.cfgMagic m) s = .next { s with magicCfg := m, results := s.results ++ [.done] })

/-- R182: START opens a fresh context unless one is live. The content of the dictionary and the cursor are `lz_init`'s
(LzInitSeedsDictionary). The bytes of `hdr`, the 17 tail bytes and `err` are left open. -/
def Obligations.StartOpensFreshContext : Prop :=
  ∀ n s,
    (s.st = .header ∨ s.st = .file ∨ s.st = .completed →
      exec (.start n) s = .next { s with results := s.results ++ [.err .download] }) ∧
    (s.st = .idle ∨ s.st = .magicMismatch ∨ s.st = .error →
      ∃ tail t, exec (.start n) s = .next t ∧ t.st = .header ∧
        t.ctx = { declaredLen := n, received := 0, written := 0, crc := 0xFFFFFFFF#32, hdr := t.ctx.hdr, hdrFill := 0,
                  dict := seededDict tail, wcur := 2031#11, bitq := .ofBits [] } ∧
        t = { s with st := t.st, err := t.err, ctx := t.ctx, draws := t.draws,
                     results := s.results ++ [.count n.toNat] })

/-- R193: RELEASE always answers `Done` and leaves no context; in Idle it has "no effect beyond the result". What
the dead elements hold afterwards is open. -/
def Obligations.ReleaseTearsDown : Prop :=
  ∀ s, ∃ t, exec .release s = .next t ∧ t.st = .idle ∧ t.results = s.results ++ [.done] ∧
    t.magicCfg = s.magicCfg ∧ t.sink = s.sink ∧ t.port = s.port ∧ t.unitResult = s.unitResult ∧
    (s.st = .idle → t = { s with results := s.results ++ [.done] })

/-- R191: PROGRESS answers by the state and changes nothing else. -/
def Obligations.ProgressCountsOrReplays : Prop :=
  ∀ s, ∃ r, exec .progress s = .next { s with results := s.results ++ [r] } ∧
    (s.st = .idle → r = .err .download) ∧
    (s.st = .header ∨ s.st = .file ∨ s.st = .completed → r = .count s.ctx.written) ∧
    (s.st = .magicMismatch ∨ s.st = .error → r = .err s.err)

/-- R192: VERIFY answers by the state, in Completed by the checksum, and changes nothing else. -/
def Obligations.VerifyComparesChecksum : Prop :=
  ∀ s, ∃ r, exec .verify s = .next { s with results := s.results ++ [r] } ∧
    (s.st = .idle ∨ s.st = .header ∨ s.st = .file → r = .err .download) ∧
    (s.st = .magicMismatch ∨ s.st = .error → r = .err s.err) ∧
    (s.st = .completed → ~~~s.ctx.crc = u32le s.ctx.hdr[4] s.ctx.hdr[5] s.ctx.hdr[6] s.ctx.hdr[7] → r = .done) ∧
    (s.st = .completed → ~~~s.ctx.crc ≠ u32le s.ctx.hdr[4] s.ctx.hdr[5] s.ctx.hdr[6] s.ctx.hdr[7] → r = .err .checksum)

/-! ## POLL -/

/-- R188 and R190, with the answer of R189: outside Header and File a POLL ignores its chunk and changes no state; in
Idle, PROGRESS and VERIFY are refused alike. -/
def Obligations.PollOutsideDownloadOnlyAnswers : Prop :=
  ∀ chunk s,
    (s.st = .completed → exec (.poll chunk) s = .next { s with results := s.results ++ [.done] }) ∧
    (s.st = .magicMismatch ∨ s.st = .error →
      exec (.poll chunk) s = .next { s with results := s.results ++ [.err s.err] }) ∧
    (s.st = .idle →
      exec (.poll chunk) s = .next { s with results := s.results ++ [.err .download] } ∧
      exec .progress s = .next { s with results := s.results ++ [.err .download] } ∧
      exec .verify s = .next { s with results := s.results ++ [.err .download] })

/-- R184: while the header is incomplete a POLL fills it, counts the bytes and does nothing else. -/
def Obligations.PollFillsIncompleteHeader : Prop :=
  ∀ chunk s, s.st = .header → s.ctx.hdrFill.val + chunk.length < 20 →
    ∃ t, exec (.poll chunk) s = .next t ∧
      t.ctx.hdrFill.val = s.ctx.hdrFill.val + chunk.length ∧
      (∀ i : Fin 20, t.ctx.hdr[i] = if s.ctx.hdrFill.val ≤ i.val ∧ i.val < s.ctx.hdrFill.val + chunk.length
        then chunk.getD (i.val - s.ctx.hdrFill.val) 0 else s.ctx.hdr[i]) ∧
      t = { s with
        results := s.results ++ [.inProgress]
        ctx := { s.ctx with hdr := t.ctx.hdr, hdrFill := t.ctx.hdrFill, received := s.ctx.received + chunk.length } }

/-- The POLL that completes the header (43_fsm_commands.md section 5, table of POLL from Header), with `h` the header
as filled and `f` all the bytes received: length check first, then magic check, then the completion test. A failed
check lets no payload byte reach the sink. -/
def Obligations.PollCompletingHeaderTransitions : Prop :=
  ∀ chunk s (h : Vector Byte 20), s.st = .header → s.ctx.received = s.ctx.hdrFill.val →
    20 ≤ s.ctx.hdrFill.val + chunk.length →
    (∀ i : Fin 20, h[i] = if i.val < s.ctx.hdrFill.val then s.ctx.hdr[i]
      else chunk.getD (i.val - s.ctx.hdrFill.val) 0) →
    ∃ t r, exec (.poll chunk) s = .next t ∧ t.results = s.results ++ [r] ∧
      t.magicCfg = s.magicCfg ∧ t.port = s.port ∧ t.unitResult = s.unitResult ∧
      (let f := s.ctx.hdrFill.val + chunk.length
       let n := s.ctx.declaredLen.toNat
       if (hdrLength h).toNat + 8 ≠ n then
         t.st = .error ∧ t.err = .hdrLength ∧ r = .err .hdrLength ∧ t.sink = s.sink
       else if hdrMagic h ≠ s.magicCfg then
         t.st = .magicMismatch ∧ t.err = .hdrMagic ∧ r = .err .hdrMagic ∧ t.sink = s.sink
       else if f < n then t.st = .file ∧ r = .inProgress
       else if f = n then t.st = .completed ∧ r = .done
       else t.st = .error ∧ t.err = .download ∧ r = .err .download)

/-- What a POLL that completes a good header leaves (R185, R186, R118): the rest of the chunk decoded, its output in the
sink even when the POLL ends in overrun; unless it does, the 12 covered header bytes and then the rest of the chunk in
the checksum, and `received` counting every byte. After an overrun the context is dead and open. -/
def Obligations.PollCompletingHeaderRoutesRest : Prop :=
  ∀ chunk s (h : Vector Byte 20), s.st = .header → s.ctx.received = s.ctx.hdrFill.val →
    20 ≤ s.ctx.hdrFill.val + chunk.length →
    (∀ i : Fin 20, h[i] = if i.val < s.ctx.hdrFill.val then s.ctx.hdr[i]
      else chunk.getD (i.val - s.ctx.hdrFill.val) 0) →
    (hdrLength h).toNat + 8 = s.ctx.declaredLen.toNat → hdrMagic h = s.magicCfg →
    ∃ t, exec (.poll chunk) s = .next t ∧
      (let rest := chunk.drop (20 - s.ctx.hdrFill.val)
       let d := lzFeed rest s
       t.sink = d.sink ∧
       (s.ctx.hdrFill.val + chunk.length ≤ s.ctx.declaredLen.toNat →
         t.ctx = { s.ctx with
           hdr := h, hdrFill := 20
           crc := crcUpdate (crcUpdate s.ctx.crc (h.toList.drop 8)) rest
           received := s.ctx.hdrFill.val + chunk.length
           written := d.ctx.written, dict := d.ctx.dict, wcur := d.ctx.wcur, bitq := d.ctx.bitq }))

/-- R187, as a POLL in File meets it: the test is made once, on all the bytes received. -/
def Obligations.PollInFileTransitions : Prop :=
  ∀ chunk s, s.st = .file →
    ∃ t r, exec (.poll chunk) s = .next t ∧ t.results = s.results ++ [r] ∧
      t.magicCfg = s.magicCfg ∧ t.port = s.port ∧ t.unitResult = s.unitResult ∧
      (let n := s.ctx.received + chunk.length
       if n = s.ctx.declaredLen.toNat then t.st = .completed ∧ r = .done
       else if s.ctx.declaredLen.toNat < n then t.st = .error ∧ t.err = .download ∧ r = .err .download
       else t.st = .file ∧ r = .inProgress)

/-- R186: every byte of the chunk goes into the decoder, those beyond the declared length too: their output reaches the
sink even when the POLL ends in overrun. Unless it does, every byte is in the checksum and counted; after an overrun the
context is dead and open. -/
def Obligations.PollInFileRoutesEveryByte : Prop :=
  ∀ chunk s, s.st = .file →
    ∃ t, exec (.poll chunk) s = .next t ∧ t.sink = (lzFeed chunk s).sink ∧
      (s.ctx.received + chunk.length ≤ s.ctx.declaredLen.toNat →
        t.ctx = { (lzFeed chunk s).ctx with
          crc := crcUpdate s.ctx.crc chunk, received := s.ctx.received + chunk.length } ∧
        t = { s with st := t.st, ctx := t.ctx, sink := t.sink, results := t.results })

/-- R195: "An empty POLL is therefore always a no-op on state." In Header and File this needs the invariant. -/
def Obligations.EmptyPollChangesNoState : Prop :=
  ∀ s, s.Inv → ∃ r, exec (.poll []) s = .next { s with results := s.results ++ [r] } ∧
    (s.st = .header ∨ s.st = .file → r = .inProgress) ∧ (s.st = .completed → r = .done) ∧
    (s.st = .magicMismatch ∨ s.st = .error → r = .err s.err) ∧ (s.st = .idle → r = .err .download)

/-- Error-state entry (R224): which state, which code, and what survives. What the dead context holds is open. -/
def Obligations.RaiseEntersErrorState : Prop :=
  ∀ code s, (raise code s).st = (if code = .hdrMagic then .magicMismatch else .error) ∧ (raise code s).err = code ∧
    (raise code s).results = s.results ++ [.err code] ∧ (raise code s).magicCfg = s.magicCfg ∧
    (raise code s).sink = s.sink ∧ (raise code s).port = s.port

/-- Delivering bytes `I` after one START as any POLLs, or as the single POLL `I` (43_fsm_commands.md section 5): the
same end state, sink log and last result, when `I` does not pass the declared length or the header checks fail. The
statement equates the whole state. Where the header checks fail the context is dead, and R197 says nothing of it: that the
two dead contexts are equal too rests on the model's choice that free values are a function of the number of draws
(notes/assumptions/2.md; unsafe). -/
def Obligations.ChunkBoundariesAreInvisible : Prop :=
  ∀ cs s, s.Inv → s.st = .header ∨ s.st = .file → cs ≠ [] →
    (s.ctx.received + cs.flatten.length ≤ s.ctx.declaredLen.toNat ∨
      (∃ u, exec (.poll cs.flatten) s = .next u ∧
        (u.results = s.results ++ [.err .hdrLength] ∨ u.results = s.results ++ [.err .hdrMagic]))) →
    ∃ t, exec (.poll cs.flatten) s = .next t ∧
      { pollAll cs s with results := t.results } = t ∧
      (pollAll cs s).results.getLast? = t.results.getLast?

/-- The acceptance gate end to end (R80, R118, R119): after START with the true length, an image `h ++ p` whose length
and magic fields are right completes, and VERIFY answers `Done` exactly when the stored checksum is that of the image
bytes from offset 8. -/
def Obligations.ImageAcceptedExactlyWhenChecksumMatches : Prop :=
  ∀ (n : Word) (h : Vector Byte 20) (p : List Byte) (s : State), s.st = .idle ∨ s.st = .magicMismatch ∨ s.st = .error →
    n.toNat = 20 + p.length → (hdrLength h).toNat + 8 = n.toNat → hdrMagic h = s.magicCfg →
    ∃ t u v, exec (.start n) s = .next t ∧ exec (.poll (h.toList ++ p)) t = .next u ∧ exec .verify u = .next v ∧
      u.st = .completed ∧ v.st = .completed ∧
      v.results = s.results ++ [.count n.toNat, .done,
        if ~~~crcUpdate 0xFFFFFFFF#32 (h.toList.drop 8 ++ p) = hdrCrc32 h then .done else .err .checksum]

/-! ## Rules over every instruction -/

/-- `magic_cfg` is "Written only by CFG_MAGIC", and by it only while no context is live. -/
def Obligations.OnlyCfgMagicWritesMagic : Prop :=
  ∀ i s t, exec i s = .next t →
    t.magicCfg = s.magicCfg ∨ ∃ m, i = .cfgMagic m ∧ s.st.active = false ∧ t.magicCfg = m

/-- The transition table (43_fsm_commands.md section 5): there is no other transition of `st`, whatever the
instruction. -/
def Obligations.PhaseMovesOnlyAsTabled : Prop :=
  ∀ i s t, exec i s = .next t → t.st ≠ s.st →
    (i = .release ∧ t.st = .idle) ∨
    (∃ n, i = .start n ∧ s.st.active = false ∧ t.st = .header) ∨
    (∃ chunk, i = .poll chunk ∧ s.st = .header ∧
      (t.st = .file ∨ t.st = .completed ∨ t.st = .magicMismatch ∨ t.st = .error)) ∨
    (∃ chunk, i = .poll chunk ∧ s.st = .file ∧ (t.st = .completed ∨ t.st = .error))

/-- R227: an error state "is left only by RELEASE (to Idle) or START (to Header, with a fresh context)". A fresh context
is R182's: what the dictionary's seed and the first cursor are is LzInitSeedsDictionary's (D12, D9). -/
def Obligations.ErrorStateLeftOnlyByReleaseOrStart : Prop :=
  ∀ i s t, s.st = .magicMismatch ∨ s.st = .error → exec i s = .next t →
    (t.st = s.st ∧ t.err = s.err) ∨ (i = .release ∧ t.st = .idle) ∨
      (∃ n tail, i = .start n ∧ t.st = .header ∧ t.ctx =
        { declaredLen := n, received := 0, written := 0, crc := 0xFFFFFFFF#32, hdr := t.ctx.hdr, hdrFill := 0,
          dict := seededDict tail, wcur := initialCursor, bitq := .ofBits [] })

/-- The sink is append-only: no instruction recalls a byte. -/
def Obligations.SinkIsAppendOnly : Prop :=
  ∀ i s t, exec i s = .next t → ∃ out, t.sink = s.sink ++ out

/-- "Incremented by 1 in `emit` and nowhere else": while the download goes on (or `st` stands), `written` counts the
bytes added to the sink. -/
def Obligations.WrittenCountsSinkBytes : Prop :=
  ∀ i s t, exec i s = .next t → t.st = .file ∨ t.st = .completed ∨ t.st = s.st →
    t.ctx.written + s.sink.length = s.ctx.written + t.sink.length

/-! ## Checksum unit -/

/-- R111 and R114: `crc_init` answers the seed, `crc_final` the complement of its operand; both only answer. -/
def Obligations.CrcInitAndFinalAnswer : Prop :=
  ∀ s, exec .crcInit s = .next { s with unitResult := .word 0xFFFFFFFF#32 } ∧
    ∀ c, exec (.crcFinal c) s = .next { s with unitResult := .word (c ^^^ 0xFFFFFFFF#32) }

/-- R112's eight passes. The polynomial and the direction are the spec's choice D13 (40_crc.md section 1). -/
def Obligations.CrcStepRunsEightPasses : Prop :=
  ∀ (c : Word) (b : Byte) s,
    let pass := fun x : Word => if x.getLsbD 0 then (x >>> 1) ^^^ 0xEDB88320#32 else x >>> 1
    exec (.crcStep c b) s = .next { s with unitResult := .word (Nat.iterate pass 8 (c ^^^ b.setWidth 32)) }

/-- R113: `crc_update` is the fold of `crc_step` from the left. -/
def Obligations.CrcUpdateFoldsStep : Prop :=
  ∀ c s, exec (.crcUpdate c []) s = .next { s with unitResult := .word c } ∧
    ∀ b bytes, ∃ r, exec (.crcUpdate c (b :: bytes)) s = .next { s with unitResult := .word r } ∧
      exec (.crcUpdate (crcStep c b) bytes) s = .next { s with unitResult := .word r }

/-- R115: streaming equals whole-buffer computation. -/
def Obligations.CrcChunkInvariance : Prop :=
  ∀ c a b, crcUpdate (crcUpdate c a) b = crcUpdate c (a ++ b)

/-- The table form of 40_crc.md section 3. -/
def Obligations.CrcTableFormEqualsLoop : Prop :=
  ∀ c b, crcStep c b = (c >>> 8) ^^^ crcTable ((c ^^^ b.setWidth 32).setWidth 8)

/-- "`crc_step(c, b)` is a bijection in `c` for each fixed `b`" (40_crc.md section 3). -/
def Obligations.CrcStepIsBijective : Prop := ∀ b, Function.Bijective fun c => crcStep c b

/-! ## Header unit -/

/-- R130: `hdr_feed` copies `min(|s|, 20 - hdr_fill)` bytes upward from `hdr_fill`, answers that number, and changes
nothing else. -/
def Obligations.HdrFeedFillsUpward : Prop :=
  ∀ bytes s, ∃ t, exec (.hdrFeed bytes) s = .next t ∧
    (let k := min bytes.length (20 - s.ctx.hdrFill.val)
     t.unitResult = .consumed k ∧ t.ctx.hdrFill.val = s.ctx.hdrFill.val + k ∧
     (∀ i : Fin 20, t.ctx.hdr[i] = if s.ctx.hdrFill.val ≤ i.val ∧ i.val < s.ctx.hdrFill.val + k
       then bytes.getD (i.val - s.ctx.hdrFill.val) 0 else s.ctx.hdr[i])) ∧
    t = { s with unitResult := t.unitResult, ctx := { s.ctx with hdr := t.ctx.hdr, hdrFill := t.ctx.hdrFill } }

/-- Chunk invariance of the fill (41_header.md section 3), and the consumed counts add up. -/
def Obligations.HdrFeedChunkInvariance : Prop :=
  ∀ a b s, hdrFeed b (hdrFeed a s) = hdrFeed (a ++ b) s ∧
    hdrRoom s.ctx.hdrFill a + hdrRoom (hdrFeed a s).ctx.hdrFill b = hdrRoom s.ctx.hdrFill (a ++ b)

/-- R133: the length check over the naturals comes first; nothing but the answer changes. The rule is about the complete
header; that `hdr_validate` run as an instruction reads an incomplete one as it stands is the model's choice
(notes/assumptions/18.md). -/
def Obligations.HdrValidateChecksInOrder : Prop :=
  ∀ s, ∃ v, exec .hdrValidate s = .next { s with unitResult := .check v } ∧
    (let n := (u32le s.ctx.hdr[0] s.ctx.hdr[1] s.ctx.hdr[2] s.ctx.hdr[3]).toNat
     let m := u32le s.ctx.hdr[8] s.ctx.hdr[9] s.ctx.hdr[10] s.ctx.hdr[11]
     (n + 8 ≠ s.ctx.declaredLen.toNat → v = .lengthMismatch) ∧
     (n + 8 = s.ctx.declaredLen.toNat → m ≠ s.magicCfg → v = .magicMismatch) ∧
     (n + 8 = s.ctx.declaredLen.toNat → m = s.magicCfg → v = .ok))

/-- R11 and R65: the byte at the lowest offset is the least significant. -/
def Obligations.HeaderWordsAreLittleEndian : Prop :=
  ∀ b0 b1 b2 b3, (u32le b0 b1 b2 b3).toNat = b0.toNat + 256 * b1.toNat + 65536 * b2.toNat + 16777216 * b3.toNat

/-- The nine fields of 30_encoding.md section 2 cut the version record without gap or overlap, `header_version` at the
bottom. That allocation starts at bit 0 is the spec's choice D7. -/
def Obligations.VersionFieldsTileTheRecord : Prop :=
  ∀ v : BitVec 64, let f := versionFields v
    f.payloadBuildNum ++ f.payloadPatch ++ f.payloadMinor ++ f.payloadMajor ++ f.payloadTarget ++ f.spare ++
      f.signature ++ f.compression ++ f.headerVersion = v

/-! ## Decoder unit -/

/-- R150: `lz_init`. The value `0x20` and the cursor 2031 are the spec's choices D12 and D9; the tail is an operand. -/
def Obligations.LzInitSeedsDictionary : Prop :=
  ∀ tail s, ∃ t, exec (.lzInit tail) s = .next t ∧
    (∀ i, i < 2031 → dictRead i t = 0x20#8) ∧ (∀ j : Fin 17, dictRead (2031 + j.val) t = tail[j]) ∧
    t = { s with ctx := { s.ctx with dict := t.ctx.dict, wcur := 2031#11, bitq := .ofBits [] } }

/-- R151 and R153: `emit`, and LIT with the same byte, store at the cursor, advance it modulo 2048, count, and append to
the sink; every other index of the dictionary reads as before, and nothing else changes. -/
def Obligations.EmitAndLitStoreAndForward : Prop :=
  ∀ v s, ∃ t, exec (.emit v) s = .next t ∧ exec (.lit v) s = .next t ∧
    (∀ i, dictRead i t = if i % 2048 = s.ctx.wcur.toNat then v else dictRead i s) ∧
    t = { s with sink := s.sink ++ [v], ctx :=
      { s.ctx with dict := t.ctx.dict, wcur := s.ctx.wcur + 1, written := s.ctx.written + 1 } }

/-- REF (42_lzss.md section 3): `len + 2` bytes from the absolute index `off`, each read seeing the writes of earlier
iterations: byte `k` is the output byte that stands at index `off + k` if this REF has written that index before
iteration `k`, and the old dictionary byte otherwise. The stored bytes are those at `wcur .. wcur + len + 1`; every
other index reads as before. The absolute offset and the overlap are the spec's choice D10. -/
def Obligations.RefCopiesByteByByte : Prop :=
  ∀ off len s, ∃ t out, exec (.ref off len) s = .next t ∧ out.length = len.toNat + 2 ∧
    (∀ k, k < len.toNat + 2 →
      let d := (off.toNat + k + 2048 - s.ctx.wcur.toNat) % 2048
      out.getD k 0 = if d < k then out.getD d 0 else dictRead (off.toNat + k) s) ∧
    (∀ k, k < len.toNat + 2 → dictRead (s.ctx.wcur.toNat + k) t = out.getD k 0) ∧
    (∀ i, (∀ k, k < len.toNat + 2 → i % 2048 ≠ (s.ctx.wcur.toNat + k) % 2048) → dictRead i t = dictRead i s) ∧
    t = { s with sink := s.sink ++ out, ctx :=
      { s.ctx with
        dict := t.ctx.dict, wcur := s.ctx.wcur + BitVec.ofNat 11 (len.toNat + 2)
        written := s.ctx.written + (len.toNat + 2) } }

/-- A REF just behind the cursor repeats the last `p` bytes periodically (42_lzss.md section 3, corner cases). -/
def Obligations.RefBehindCursorRepeats : Prop :=
  ∀ (p : Nat) (len : BitVec 4) (s : State), 1 ≤ p → p ≤ 17 →
    ∃ t out, exec (.ref (s.ctx.wcur - BitVec.ofNat 11 p) len) s = .next t ∧ t.sink = s.sink ++ out ∧
      out.length = len.toNat + 2 ∧
      ∀ k, k < len.toNat + 2 → out.getD k 0 = dictRead (s.ctx.wcur.toNat + 2048 - p + k % p) s

/-- A REF at the cursor "writes the same value back: the dictionary is unchanged, the bytes are still emitted"
(42_lzss.md section 3, corner cases). -/
def Obligations.RefAtCursorKeepsDictionary : Prop :=
  ∀ len s, ∃ t out, exec (.ref s.ctx.wcur len) s = .next t ∧ t.ctx.dict = s.ctx.dict ∧ t.sink = s.sink ++ out ∧
    out.length = len.toNat + 2 ∧ ∀ k, k < len.toNat + 2 → out.getD k 0 = dictRead (s.ctx.wcur.toNat + k) s

/-- R152: one payload byte joins the pending bits; the token it completes is taken off and executed; the bits that stay
pending are all kept. -/
def Obligations.LzFeedByteRunsCompletedToken : Prop :=
  ∀ b s, ∃ t, exec (.lzFeedByte b) s = .next t ∧
    (let q := s.ctx.bitq.bits ++ msb8 b
     (9 ≤ q.length → q.head? = some true → ∃ left : BitQueue, left.bits = q.drop 9 ∧
       exec (.lit (BitVec.ofNat 8 (val ((q.drop 1).take 8)))) { s with ctx := { s.ctx with bitq := left } }
         = .next t) ∧
     (16 ≤ q.length → q.head? = some false → ∃ left : BitQueue, left.bits = q.drop 16 ∧
       exec (.ref (BitVec.ofNat 11 (val ((q.drop 1).take 11))) (BitVec.ofNat 4 (val ((q.drop 12).take 4))))
         { s with ctx := { s.ctx with bitq := left } } = .next t) ∧
     (¬(9 ≤ q.length ∧ q.head? = some true) → ¬(16 ≤ q.length ∧ q.head? = some false) →
       ∃ left : BitQueue, left.bits = q ∧ t = { s with ctx := { s.ctx with bitq := left } }))

/-- R155: `lz_feed` is `lz_feed_byte` on each byte in order. -/
def Obligations.LzFeedRunsBytesInOrder : Prop :=
  ∀ s, exec (.lzFeed []) s = .next s ∧
    ∀ b bytes, ∃ t u, exec (.lzFeedByte b) s = .next t ∧ exec (.lzFeed bytes) t = .next u ∧
      exec (.lzFeed (b :: bytes)) s = .next u

/-- The queue bound of 42_lzss.md section 5: after every byte it holds no complete token. -/
def Obligations.PendingQueueStaysBelowToken : Prop :=
  ∀ b s t, pendingOnly s.ctx.bitq.bits → exec (.lzFeedByte b) s = .next t → pendingOnly t.ctx.bitq.bits

/-- The expansion bound of 42_lzss.md section 5, with the frame of the decoder: `n` payload bytes emit at most `17 * n`
bytes, `written` and the cursor count them, and nothing but the decoder's elements changes. -/
def Obligations.LzFeedExpandsAtMostSeventeenfold : Prop :=
  ∀ bytes s, ∃ t out, exec (.lzFeed bytes) s = .next t ∧ out.length ≤ 17 * bytes.length ∧
    t = { s with sink := s.sink ++ out, ctx :=
      { s.ctx with
        dict := t.ctx.dict, bitq := t.ctx.bitq, wcur := s.ctx.wcur + BitVec.ofNat 11 out.length
        written := s.ctx.written + out.length } }

/-- Whole-stream meaning (42_lzss.md section 5): fed byte by byte, a payload executes exactly the tokens of its bit
sequence, in order, and keeps exactly the incomplete tail. -/
def Obligations.StreamRunsTokensOfItsBits : Prop :=
  ∀ bytes s, pendingOnly s.ctx.bitq.bits →
    let q := s.ctx.bitq.bits ++ payloadBits bytes
    (rest q).length ≤ 15 ∧ exec (.lzFeed bytes) s
      = .next (setBitq (rest q) ((tokens q).foldl (fun u tok => runToken tok u) (setBitq [] s)))

/-- A payload that spells a token list and at most 7 bits of padding executes that list (R84, R88). -/
def Obligations.EncodedTokensDecode : Prop :=
  ∀ (toks : List Token) (pad : List Bool) (bytes : List Byte) (s : State), s.ctx.bitq.bits = [] → pad.length ≤ 7 →
    payloadBits bytes = toks.flatMap encodeToken ++ pad →
    exec (.lzFeed bytes) s = .next (setBitq pad (toks.foldl (fun u tok => runToken tok u) s))

/-- The all-literal stream of 42_lzss.md section 5: for every `x` there is a payload whose bits are those of
`LIT x[0]; LIT x[1]; ...` and at most 7 bits of padding, and it decodes to `x` from every dictionary, whatever its tail. -/
def Obligations.EveryOutputHasLiteralPayload : Prop :=
  ∀ x : List Byte, ∃ (bytes : List Byte) (pad : List Bool), pad.length ≤ 7 ∧
    payloadBits bytes = (x.map Token.lit).flatMap encodeToken ++ pad ∧
    ∀ s, s.ctx.bitq.bits = [] →
      ∃ t, exec (.lzFeed bytes) s = .next t ∧ t.sink = s.sink ++ x ∧ t.ctx.written = s.ctx.written + x.length

/-- The relation between the dictionary and the output (42_lzss.md section 5) is kept by every payload byte. -/
def Obligations.DictionaryHoldsOutput : Prop :=
  ∀ tail b s t, DictMatches tail s → s.ctx.wcur.toNat = (2031 + s.ctx.written) % 2048 →
    exec (.lzFeedByte b) s = .next t → DictMatches tail t ∧ t.ctx.wcur.toNat = (2031 + t.ctx.written) % 2048

/-- "after 17 emits the parameter can no longer be seen" (42_lzss.md section 5): two downloads with the same output of
17 bytes or more have the same dictionary, whatever their tails were. -/
def Obligations.TailInvisibleAfterSeventeen : Prop :=
  ∀ tail tail' s s', DictMatches tail s → DictMatches tail' s' → 17 ≤ s.ctx.written → s'.ctx.written = s.ctx.written →
    s'.sink.drop (s'.sink.length - s'.ctx.written) = s.sink.drop (s.sink.length - s.ctx.written) →
    s'.ctx.dict = s.ctx.dict
end

