-- ==== Sys2Proof/Laws/Decode.lean ====
section
/-! SUPPORT. Bit sequences and tokens: lengths, what the decoder takes off a sequence, and when it takes nothing. -/

namespace Sys2Proof

@[simp] theorem bitsMsb_length {n : Nat} (v : BitVec n) : (bitsMsb v).length = n := by simp [bitsMsb]

@[simp] theorem msb8_length (b : Byte) : (msb8 b).length = 8 := bitsMsb_length b

/-! ## The bit queue (R31) -/

/-- Filling the queue with at most 15 bits loses none. -/
theorem ofBits_bits {q : List Bool} (h : q.length ≤ 15) : (Machine.BitQueue.ofBits q).bits = q :=
  List.take_of_length_le h

@[simp] theorem ofBits_nil_bits : (Machine.BitQueue.ofBits []).bits = [] := rfl

@[simp] theorem ofBits_self (q : Machine.BitQueue) : Machine.BitQueue.ofBits q.bits = q := by
  have h := ofBits_bits q.short
  cases q
  simpa [Machine.BitQueue.ofBits] using h

/-- The open queue of a dead context holds no complete token either (R35). -/
theorem pendingOnly_deadQueue (draw : Nat) : Machine.pendingOnly (Machine.deadQueue draw).bits := by
  have hroom := Nat.mod_lt (Config.deadBitCount draw) (show 0 < (if Config.deadBit draw 0 then 9 else 16) by split <;> omega)
  unfold Machine.deadQueue
  simp only
  generalize Config.deadBitCount draw % (if Config.deadBit draw 0 then 9 else 16) = n at *
  rw [ofBits_bits (by simp; split at hroom <;> omega)]
  refine ⟨by simp; split at hroom <;> omega, fun h => ?_⟩
  rcases n with _ | n
  · simp
  · have h0 : Config.deadBit draw 0 = true := by simpa [List.range_succ_eq_map] using h
    rw [if_pos h0] at hroom
    simp
    omega

@[simp] theorem payloadBits_nil : payloadBits [] = [] := rfl

@[simp] theorem payloadBits_cons (b : Byte) (bytes : List Byte) :
    payloadBits (b :: bytes) = msb8 b ++ payloadBits bytes := rfl

theorem encodeToken_lit_length (d : Byte) : (encodeToken (.lit d)).length = 9 := by simp [encodeToken]

theorem encodeToken_ref_length (off : BitVec 11) (len : BitVec 4) : (encodeToken (.ref off len)).length = 16 := by
  simp [encodeToken]

/-- A leading 1 makes a literal as soon as 9 bits are there. -/
theorem decodeToken_true (q : List Bool) (h : 8 ≤ q.length) :
    decodeToken (true :: q) = some (.lit (BitVec.ofNat 8 (val (q.take 8))), q.drop 8) := by
  simp [decodeToken, h]

/-- A leading 0 makes a back-reference as soon as 16 bits are there. -/
theorem decodeToken_false (q : List Bool) (h : 15 ≤ q.length) :
    decodeToken (false :: q) = some
      (.ref (BitVec.ofNat 11 (val (q.take 11))) (BitVec.ofNat 4 (val ((q.drop 11).take 4))), q.drop 15) := by
  simp [decodeToken, h]

/-- The decoder takes nothing exactly when the bits are those of an incomplete token (R87). -/
theorem decodeToken_none_iff (q : List Bool) : decodeToken q = none ↔ Machine.pendingOnly q := by
  rcases q with _ | ⟨_ | _, q⟩
  · simp [decodeToken, Machine.pendingOnly]
  · simp [decodeToken, Machine.pendingOnly]
  · simp [decodeToken, Machine.pendingOnly]
    omega

/-- What the decoder takes off is one of the two formats, at its full length. -/
theorem decodeToken_some {q : List Bool} {tok : Token} {r : List Bool} (h : decodeToken q = some (tok, r)) :
    (∃ q', q = true :: q' ∧ 8 ≤ q'.length ∧ tok = .lit (BitVec.ofNat 8 (val (q'.take 8))) ∧ r = q'.drop 8) ∨
    (∃ q', q = false :: q' ∧ 15 ≤ q'.length ∧
      tok = .ref (BitVec.ofNat 11 (val (q'.take 11))) (BitVec.ofNat 4 (val ((q'.drop 11).take 4))) ∧
      r = q'.drop 15) := by
  rcases q with _ | ⟨_ | _, q⟩
  · simp [decodeToken] at h
  · right
    by_cases hl : 15 ≤ q.length
    · rw [decodeToken_false q hl] at h
      cases h
      exact ⟨q, rfl, hl, rfl, rfl⟩
    · simp [decodeToken, hl] at h
  · left
    by_cases hl : 8 ≤ q.length
    · rw [decodeToken_true q hl] at h
      cases h
      exact ⟨q, rfl, hl, rfl, rfl⟩
    · simp [decodeToken, hl] at h

/-- A completed token is shorter than what was pending. -/
theorem decodeToken_rest_lt {q r : List Bool} {tok : Token} (h : decodeToken q = some (tok, r)) :
    r.length < q.length := by
  rcases decodeToken_some h with ⟨q', rfl, hl, -, rfl⟩ | ⟨q', rfl, hl, -, rfl⟩ <;> simp

/-- Bits that arrive after a completed token do not change it. -/
theorem decodeToken_append {q r : List Bool} {tok : Token} (h : decodeToken q = some (tok, r)) (x : List Bool) :
    decodeToken (q ++ x) = some (tok, r ++ x) := by
  rcases decodeToken_some h with ⟨q', rfl, hl, rfl, rfl⟩ | ⟨q', rfl, hl, rfl, rfl⟩
  · rw [List.cons_append, decodeToken_true _ (by simp; omega), List.take_append_of_le_length hl,
      List.drop_append_of_le_length hl]
  · rw [List.cons_append, decodeToken_false _ (by simp; omega), List.take_append_of_le_length (by omega),
      List.drop_append_of_le_length (by omega), List.drop_append_of_le_length hl,
      List.take_append_of_le_length (by simp; omega)]

/-- After one byte joins bits that hold no complete token, the token it may complete leaves at most 7 bits (R156). -/
theorem rest_short_after_byte {q r : List Bool} {tok : Token} (b : Byte) (hq : Machine.pendingOnly q)
    (h : decodeToken (q ++ msb8 b) = some (tok, r)) : r.length ≤ 7 := by
  have hlen : (q ++ msb8 b).length = q.length + 8 := by simp
  rcases q with _ | ⟨x, q⟩
  · rcases decodeToken_some h with ⟨q', he, hl, -, rfl⟩ | ⟨q', he, hl, -, rfl⟩ <;>
    · rw [he] at hlen
      simp at hlen ⊢
      omega
  · obtain ⟨h15, h8⟩ := hq
    rcases decodeToken_some h with ⟨q', he, hl, -, rfl⟩ | ⟨q', he, hl, -, rfl⟩
    · have hx : x = true := by simpa using congrArg List.head? he
      have := h8 (by simp [hx])
      rw [he] at hlen
      simp at hlen this ⊢
      omega
    · rw [he] at hlen
      simp at hlen h15 ⊢
      omega

/-- With at most 15 bits pending, a byte completes a token or leaves at most 15 bits; a completed token leaves at most
14: the queue of R31 never overflows. -/
theorem queue_room (q : Machine.BitQueue) (b : Byte) :
    (decodeToken (q.bits ++ msb8 b) = none → (q.bits ++ msb8 b).length ≤ 15) ∧
    (∀ tok r, decodeToken (q.bits ++ msb8 b) = some (tok, r) → r.length ≤ 14) := by
  have hs := q.short
  refine ⟨fun h => ((decodeToken_none_iff _).mp h).1, fun tok r h => ?_⟩
  have hlen : (q.bits ++ msb8 b).length = q.bits.length + 8 := by simp
  rcases decodeToken_some h with ⟨q', he, -, -, rfl⟩ | ⟨q', he, -, -, rfl⟩ <;>
  · rw [he] at hlen
    simp at hlen ⊢
    omega

/-- Seven bits or fewer never hold a token. -/
theorem pendingOnly_of_short {q : List Bool} (h : q.length ≤ 7) : Machine.pendingOnly q :=
  ⟨by omega, fun _ => by omega⟩

/-- Cutting with more fuel than bits changes nothing. -/
theorem cutTokens_fuel (n m : Nat) (q : List Bool) (hn : q.length ≤ n) (hm : q.length ≤ m) :
    cutTokens n q = cutTokens m q := by
  induction n generalizing m q with
  | zero =>
    obtain rfl : q = [] := by simpa using hn
    cases m <;> simp [cutTokens, decodeToken]
  | succ n ih =>
    cases m with
    | zero =>
      obtain rfl : q = [] := by simpa using hm
      simp [cutTokens, decodeToken]
    | succ m =>
      rw [cutTokens, cutTokens]
      cases hd : decodeToken q with
      | none => rfl
      | some p =>
        have hlt := decodeToken_rest_lt (tok := p.1) (r := p.2) hd
        simp only [ih m p.2 (by omega) (by omega)]

/-- `tokens` and `rest` of a sequence that holds no complete token (R157). -/
theorem tokens_none {q : List Bool} (h : decodeToken q = none) : tokens q = [] ∧ rest q = q := by
  unfold tokens rest
  cases hl : q.length with
  | zero => exact ⟨rfl, rfl⟩
  | succ n => simp [cutTokens, h]

/-- `tokens` and `rest` of a sequence that begins with a complete token (R157). -/
theorem tokens_some {q r : List Bool} {tok : Token} (h : decodeToken q = some (tok, r)) :
    tokens q = tok :: tokens r ∧ rest q = rest r := by
  have hlt := decodeToken_rest_lt h
  obtain ⟨n, hn⟩ : ∃ n, q.length = n + 1 := ⟨q.length - 1, by omega⟩
  unfold tokens rest
  rw [hn]
  simp only [cutTokens, h, cutTokens_fuel n r.length r (by omega) le_rfl]
  exact ⟨trivial, trivial⟩

/-- A transaction decodes to a command and to nothing else (R89). -/
theorem decodeCommand_ok {t : Transaction} {i : Instr} (h : decodeCommand t = .ok i) :
    i = .reserved0 ∨ i = .reserved7 ∨ (∃ m, i = .cfgMagic m) ∨ (∃ n, i = .start n) ∨ (∃ chunk, i = .poll chunk) ∨
      i = .progress ∨ i = .verify ∨ i = .release := by
  obtain ⟨op, x⟩ := t
  unfold decodeCommand at h
  by_cases h0 : op = 0b000#3
  · rw [if_pos h0] at h
    cases h
    simp
  · by_cases h7 : op = 0b111#3
    · rw [if_neg h0, if_pos h7] at h
      cases h
      simp
    · rw [if_neg h0, if_neg h7] at h
      cases x <;> simp only at h <;> (repeat' split at h) <;> cases h <;> simp

end Sys2Proof
end

