-- ==== Sys2Proof/Laws/Bits.lean ====
section
/-! SUPPORT. `val` and `bitsMsb` (R11) are inverse to each other at every width. -/

namespace Sys2Proof

theorem val_foldl (q : List Bool) (a : Nat) :
    q.foldl (fun a x => 2 * a + x.toNat) a = a * 2 ^ q.length + val q := by
  induction q generalizing a with
  | nil => simp [val]
  | cons x q ih =>
    simp only [List.foldl_cons, List.length_cons, val]
    rw [ih, ih (2 * 0 + _)]
    ring

/-- The first bit is the most significant. -/
theorem val_cons (x : Bool) (q : List Bool) : val (x :: q) = x.toNat * 2 ^ q.length + val q := by
  simpa [val] using val_foldl q (2 * 0 + x.toNat)

theorem val_lt (q : List Bool) : val q < 2 ^ q.length := by
  induction q with
  | nil => simp [val]
  | cons x q ih =>
    rw [val_cons, List.length_cons, pow_succ]
    cases x <;> simp <;> omega

theorem bitsMsb_succ {n : Nat} (v : BitVec (n + 1)) : bitsMsb v = v.msb :: bitsMsb (v.setWidth n) := by
  apply List.ext_getElem
  · simp
  · intro i h1 h2
    simp only [bitsMsb_length] at h1
    rcases i with _ | i
    · simp [bitsMsb, BitVec.msb]
    · have h1' : i < n := by omega
      simp [bitsMsb, BitVec.getMsbD, BitVec.getLsbD_setWidth, show n - (i + 1) = n - 1 - i by omega, h1']
      intro _
      omega

theorem val_bitsMsb {n : Nat} (v : BitVec n) : val (bitsMsb v) = v.toNat := by
  induction n with
  | zero =>
    obtain rfl : v = 0 := Subsingleton.elim _ _
    rfl
  | succ n ih =>
    have hv := v.isLt
    have hm : v.msb.toNat = v.toNat / 2 ^ n := by
      rw [BitVec.msb_eq_decide]
      by_cases c : 2 ^ n ≤ v.toNat
      · rw [pow_succ] at hv
        simp [c]
        exact (Nat.div_eq_of_lt_le (by omega) (by omega)).symm
      · simp [c, Nat.div_eq_of_lt (Nat.lt_of_not_le c)]
    rw [bitsMsb_succ, val_cons, ih, hm, bitsMsb_length, BitVec.toNat_setWidth]
    exact Nat.div_add_mod' _ _

theorem bitsMsb_val (q : List Bool) (n : Nat) (h : q.length = n) : bitsMsb (BitVec.ofNat n (val q)) = q := by
  induction q generalizing n with
  | nil =>
    simp at h
    subst h
    rfl
  | cons x q ih =>
    obtain ⟨m, rfl⟩ : ∃ m, n = m + 1 := ⟨n - 1, by simp at h; omega⟩
    have hm : q.length = m := by simpa using h
    have hl := val_lt q
    rw [hm] at hl
    rw [bitsMsb_succ, val_cons, hm]
    congr 1
    · rw [BitVec.msb_eq_decide, BitVec.toNat_ofNat]
      cases x <;> (rw [Nat.mod_eq_of_lt (by rw [pow_succ]; simp; omega)]; simp; try omega)
    · have : BitVec.setWidth m (BitVec.ofNat (m + 1) (x.toNat * 2 ^ m + val q)) = BitVec.ofNat m (val q) := by
        apply BitVec.eq_of_toNat_eq
        simp
      rw [this, ih m hm]

end Sys2Proof
end

