-- ==== Sys2Proof/Laws/State.lean ====
section
/-! SUPPORT. One lemma per field per named update of the state, so that no later proof unfolds a record update. -/

namespace Sys2Proof.Machine

/-! ## dictWrite -/

@[simp] theorem dictWrite_magicCfg (i : Nat) (v : Byte) (s : State) : (dictWrite i v s).magicCfg = s.magicCfg := rfl
@[simp] theorem dictWrite_st (i : Nat) (v : Byte) (s : State) : (dictWrite i v s).st = s.st := rfl
@[simp] theorem dictWrite_err (i : Nat) (v : Byte) (s : State) : (dictWrite i v s).err = s.err := rfl
@[simp] theorem dictWrite_port (i : Nat) (v : Byte) (s : State) : (dictWrite i v s).port = s.port := rfl
@[simp] theorem dictWrite_sink (i : Nat) (v : Byte) (s : State) : (dictWrite i v s).sink = s.sink := rfl
@[simp] theorem dictWrite_results (i : Nat) (v : Byte) (s : State) : (dictWrite i v s).results = s.results := rfl
@[simp] theorem dictWrite_unitResult (i : Nat) (v : Byte) (s : State) : (dictWrite i v s).unitResult = s.unitResult := rfl
@[simp] theorem dictWrite_draws (i : Nat) (v : Byte) (s : State) : (dictWrite i v s).draws = s.draws := rfl
@[simp] theorem dictWrite_declaredLen (i : Nat) (v : Byte) (s : State) : (dictWrite i v s).ctx.declaredLen = s.ctx.declaredLen := rfl
@[simp] theorem dictWrite_received (i : Nat) (v : Byte) (s : State) : (dictWrite i v s).ctx.received = s.ctx.received := rfl
@[simp] theorem dictWrite_written (i : Nat) (v : Byte) (s : State) : (dictWrite i v s).ctx.written = s.ctx.written := rfl
@[simp] theorem dictWrite_crc (i : Nat) (v : Byte) (s : State) : (dictWrite i v s).ctx.crc = s.ctx.crc := rfl
@[simp] theorem dictWrite_hdr (i : Nat) (v : Byte) (s : State) : (dictWrite i v s).ctx.hdr = s.ctx.hdr := rfl
@[simp] theorem dictWrite_hdrFill (i : Nat) (v : Byte) (s : State) : (dictWrite i v s).ctx.hdrFill = s.ctx.hdrFill := rfl
@[simp] theorem dictWrite_wcur (i : Nat) (v : Byte) (s : State) : (dictWrite i v s).ctx.wcur = s.ctx.wcur := rfl
@[simp] theorem dictWrite_bitq (i : Nat) (v : Byte) (s : State) : (dictWrite i v s).ctx.bitq = s.ctx.bitq := rfl

/-! ## sinkWrite -/

@[simp] theorem sinkWrite_magicCfg (v : Byte) (s : State) : (sinkWrite v s).magicCfg = s.magicCfg := rfl
@[simp] theorem sinkWrite_st (v : Byte) (s : State) : (sinkWrite v s).st = s.st := rfl
@[simp] theorem sinkWrite_err (v : Byte) (s : State) : (sinkWrite v s).err = s.err := rfl
@[simp] theorem sinkWrite_port (v : Byte) (s : State) : (sinkWrite v s).port = s.port := rfl
@[simp] theorem sinkWrite_sink (v : Byte) (s : State) : (sinkWrite v s).sink = s.sink ++ [v] := rfl
@[simp] theorem sinkWrite_results (v : Byte) (s : State) : (sinkWrite v s).results = s.results := rfl
@[simp] theorem sinkWrite_unitResult (v : Byte) (s : State) : (sinkWrite v s).unitResult = s.unitResult := rfl
@[simp] theorem sinkWrite_draws (v : Byte) (s : State) : (sinkWrite v s).draws = s.draws := rfl
@[simp] theorem sinkWrite_ctx (v : Byte) (s : State) : (sinkWrite v s).ctx = s.ctx := rfl

/-! ## setPhase -/

@[simp] theorem setPhase_magicCfg (p : Phase) (s : State) : (setPhase p s).magicCfg = s.magicCfg := rfl
@[simp] theorem setPhase_st (p : Phase) (s : State) : (setPhase p s).st = p := rfl
@[simp] theorem setPhase_err (p : Phase) (s : State) : (setPhase p s).err = s.err := rfl
@[simp] theorem setPhase_port (p : Phase) (s : State) : (setPhase p s).port = s.port := rfl
@[simp] theorem setPhase_sink (p : Phase) (s : State) : (setPhase p s).sink = s.sink := rfl
@[simp] theorem setPhase_results (p : Phase) (s : State) : (setPhase p s).results = s.results := rfl
@[simp] theorem setPhase_unitResult (p : Phase) (s : State) : (setPhase p s).unitResult = s.unitResult := rfl
@[simp] theorem setPhase_draws (p : Phase) (s : State) : (setPhase p s).draws = s.draws := rfl
@[simp] theorem setPhase_ctx (p : Phase) (s : State) : (setPhase p s).ctx = s.ctx := rfl

/-! ## setCrc -/

@[simp] theorem setCrc_magicCfg (c : Word) (s : State) : (setCrc c s).magicCfg = s.magicCfg := rfl
@[simp] theorem setCrc_st (c : Word) (s : State) : (setCrc c s).st = s.st := rfl
@[simp] theorem setCrc_err (c : Word) (s : State) : (setCrc c s).err = s.err := rfl
@[simp] theorem setCrc_port (c : Word) (s : State) : (setCrc c s).port = s.port := rfl
@[simp] theorem setCrc_sink (c : Word) (s : State) : (setCrc c s).sink = s.sink := rfl
@[simp] theorem setCrc_results (c : Word) (s : State) : (setCrc c s).results = s.results := rfl
@[simp] theorem setCrc_unitResult (c : Word) (s : State) : (setCrc c s).unitResult = s.unitResult := rfl
@[simp] theorem setCrc_draws (c : Word) (s : State) : (setCrc c s).draws = s.draws := rfl
@[simp] theorem setCrc_declaredLen (c : Word) (s : State) : (setCrc c s).ctx.declaredLen = s.ctx.declaredLen := rfl
@[simp] theorem setCrc_received (c : Word) (s : State) : (setCrc c s).ctx.received = s.ctx.received := rfl
@[simp] theorem setCrc_written (c : Word) (s : State) : (setCrc c s).ctx.written = s.ctx.written := rfl
@[simp] theorem setCrc_crc (c : Word) (s : State) : (setCrc c s).ctx.crc = c := rfl
@[simp] theorem setCrc_hdr (c : Word) (s : State) : (setCrc c s).ctx.hdr = s.ctx.hdr := rfl
@[simp] theorem setCrc_hdrFill (c : Word) (s : State) : (setCrc c s).ctx.hdrFill = s.ctx.hdrFill := rfl
@[simp] theorem setCrc_dict (c : Word) (s : State) : (setCrc c s).ctx.dict = s.ctx.dict := rfl
@[simp] theorem setCrc_wcur (c : Word) (s : State) : (setCrc c s).ctx.wcur = s.ctx.wcur := rfl
@[simp] theorem setCrc_bitq (c : Word) (s : State) : (setCrc c s).ctx.bitq = s.ctx.bitq := rfl

/-! ## answer -/

@[simp] theorem answer_magicCfg (r : Res) (s : State) : (answer r s).magicCfg = s.magicCfg := rfl
@[simp] theorem answer_st (r : Res) (s : State) : (answer r s).st = s.st := rfl
@[simp] theorem answer_err (r : Res) (s : State) : (answer r s).err = s.err := rfl
@[simp] theorem answer_port (r : Res) (s : State) : (answer r s).port = s.port := rfl
@[simp] theorem answer_sink (r : Res) (s : State) : (answer r s).sink = s.sink := rfl
@[simp] theorem answer_results (r : Res) (s : State) : (answer r s).results = s.results ++ [r] := rfl
@[simp] theorem answer_unitResult (r : Res) (s : State) : (answer r s).unitResult = s.unitResult := rfl
@[simp] theorem answer_draws (r : Res) (s : State) : (answer r s).draws = s.draws := rfl
@[simp] theorem answer_ctx (r : Res) (s : State) : (answer r s).ctx = s.ctx := rfl

/-! ## refuse -/

@[simp] theorem refuse_magicCfg (code : ErrCode) (s : State) : (refuse code s).magicCfg = s.magicCfg := rfl
@[simp] theorem refuse_st (code : ErrCode) (s : State) : (refuse code s).st = s.st := rfl
@[simp] theorem refuse_err (code : ErrCode) (s : State) : (refuse code s).err = s.err := rfl
@[simp] theorem refuse_port (code : ErrCode) (s : State) : (refuse code s).port = s.port := rfl
@[simp] theorem refuse_sink (code : ErrCode) (s : State) : (refuse code s).sink = s.sink := rfl
@[simp] theorem refuse_results (code : ErrCode) (s : State) : (refuse code s).results = s.results ++ [.err code] := rfl
@[simp] theorem refuse_unitResult (code : ErrCode) (s : State) : (refuse code s).unitResult = s.unitResult := rfl
@[simp] theorem refuse_draws (code : ErrCode) (s : State) : (refuse code s).draws = s.draws := rfl
@[simp] theorem refuse_ctx (code : ErrCode) (s : State) : (refuse code s).ctx = s.ctx := rfl

/-! ## yieldUnit -/

@[simp] theorem yieldUnit_magicCfg (r : UnitResult) (s : State) : (yieldUnit r s).magicCfg = s.magicCfg := rfl
@[simp] theorem yieldUnit_st (r : UnitResult) (s : State) : (yieldUnit r s).st = s.st := rfl
@[simp] theorem yieldUnit_err (r : UnitResult) (s : State) : (yieldUnit r s).err = s.err := rfl
@[simp] theorem yieldUnit_port (r : UnitResult) (s : State) : (yieldUnit r s).port = s.port := rfl
@[simp] theorem yieldUnit_sink (r : UnitResult) (s : State) : (yieldUnit r s).sink = s.sink := rfl
@[simp] theorem yieldUnit_results (r : UnitResult) (s : State) : (yieldUnit r s).results = s.results := rfl
@[simp] theorem yieldUnit_unitResult (r : UnitResult) (s : State) : (yieldUnit r s).unitResult = r := rfl
@[simp] theorem yieldUnit_draws (r : UnitResult) (s : State) : (yieldUnit r s).draws = s.draws := rfl
@[simp] theorem yieldUnit_ctx (r : UnitResult) (s : State) : (yieldUnit r s).ctx = s.ctx := rfl

/-! ## dropContext -/

@[simp] theorem dropContext_magicCfg (s : State) : (dropContext s).magicCfg = s.magicCfg := rfl
@[simp] theorem dropContext_st (s : State) : (dropContext s).st = s.st := rfl
@[simp] theorem dropContext_err (s : State) : (dropContext s).err = s.err := rfl
@[simp] theorem dropContext_port (s : State) : (dropContext s).port = s.port := rfl
@[simp] theorem dropContext_sink (s : State) : (dropContext s).sink = s.sink := rfl
@[simp] theorem dropContext_results (s : State) : (dropContext s).results = s.results := rfl
@[simp] theorem dropContext_unitResult (s : State) : (dropContext s).unitResult = s.unitResult := rfl
@[simp] theorem dropContext_draws (s : State) : (dropContext s).draws = s.draws + 1 := rfl
@[simp] theorem dropContext_ctx (s : State) : (dropContext s).ctx = deadContext s.draws := rfl

/-! ## raise -/

@[simp] theorem raise_magicCfg (code : ErrCode) (s : State) : (raise code s).magicCfg = s.magicCfg := rfl
@[simp] theorem raise_st (code : ErrCode) (s : State) : (raise code s).st = errorPhase code := rfl
@[simp] theorem raise_err (code : ErrCode) (s : State) : (raise code s).err = code := rfl
@[simp] theorem raise_port (code : ErrCode) (s : State) : (raise code s).port = s.port := rfl
@[simp] theorem raise_sink (code : ErrCode) (s : State) : (raise code s).sink = s.sink := rfl
@[simp] theorem raise_results (code : ErrCode) (s : State) : (raise code s).results = s.results ++ [.err code] := rfl
@[simp] theorem raise_unitResult (code : ErrCode) (s : State) : (raise code s).unitResult = s.unitResult := rfl
@[simp] theorem raise_draws (code : ErrCode) (s : State) : (raise code s).draws = s.draws + 1 := rfl
@[simp] theorem raise_ctx (code : ErrCode) (s : State) : (raise code s).ctx = deadContext s.draws := rfl

/-! ## resetInput -/

@[simp] theorem resetInput_magicCfg (s : State) : (resetInput s).magicCfg = Config.magicDefault := rfl
@[simp] theorem resetInput_st (s : State) : (resetInput s).st = .idle := rfl
@[simp] theorem resetInput_err (s : State) : (resetInput s).err = Config.deadErr s.draws := rfl
@[simp] theorem resetInput_port (s : State) : (resetInput s).port = s.port := rfl
@[simp] theorem resetInput_sink (s : State) : (resetInput s).sink = s.sink := rfl
@[simp] theorem resetInput_results (s : State) : (resetInput s).results = s.results := rfl
@[simp] theorem resetInput_unitResult (s : State) : (resetInput s).unitResult = s.unitResult := rfl
@[simp] theorem resetInput_draws (s : State) : (resetInput s).draws = s.draws + 1 := rfl
@[simp] theorem resetInput_ctx (s : State) : (resetInput s).ctx = deadContext s.draws := rfl

/-! ## hdrFeed -/

@[simp] theorem hdrFeed_magicCfg (bytes : List Byte) (s : State) : (hdrFeed bytes s).magicCfg = s.magicCfg := rfl
@[simp] theorem hdrFeed_st (bytes : List Byte) (s : State) : (hdrFeed bytes s).st = s.st := rfl
@[simp] theorem hdrFeed_err (bytes : List Byte) (s : State) : (hdrFeed bytes s).err = s.err := rfl
@[simp] theorem hdrFeed_port (bytes : List Byte) (s : State) : (hdrFeed bytes s).port = s.port := rfl
@[simp] theorem hdrFeed_sink (bytes : List Byte) (s : State) : (hdrFeed bytes s).sink = s.sink := rfl
@[simp] theorem hdrFeed_results (bytes : List Byte) (s : State) : (hdrFeed bytes s).results = s.results := rfl
@[simp] theorem hdrFeed_unitResult (bytes : List Byte) (s : State) : (hdrFeed bytes s).unitResult = s.unitResult := rfl
@[simp] theorem hdrFeed_draws (bytes : List Byte) (s : State) : (hdrFeed bytes s).draws = s.draws := rfl
@[simp] theorem hdrFeed_declaredLen (bytes : List Byte) (s : State) : (hdrFeed bytes s).ctx.declaredLen = s.ctx.declaredLen := rfl
@[simp] theorem hdrFeed_received (bytes : List Byte) (s : State) : (hdrFeed bytes s).ctx.received = s.ctx.received := rfl
@[simp] theorem hdrFeed_written (bytes : List Byte) (s : State) : (hdrFeed bytes s).ctx.written = s.ctx.written := rfl
@[simp] theorem hdrFeed_crc (bytes : List Byte) (s : State) : (hdrFeed bytes s).ctx.crc = s.ctx.crc := rfl
@[simp] theorem hdrFeed_hdr (bytes : List Byte) (s : State) : (hdrFeed bytes s).ctx.hdr = hdrCopy (bytes.take (hdrRoom s.ctx.hdrFill bytes)) s.ctx.hdrFill.val s.ctx.hdr := rfl
@[simp] theorem hdrFeed_dict (bytes : List Byte) (s : State) : (hdrFeed bytes s).ctx.dict = s.ctx.dict := rfl
@[simp] theorem hdrFeed_wcur (bytes : List Byte) (s : State) : (hdrFeed bytes s).ctx.wcur = s.ctx.wcur := rfl
@[simp] theorem hdrFeed_bitq (bytes : List Byte) (s : State) : (hdrFeed bytes s).ctx.bitq = s.ctx.bitq := rfl
@[simp] theorem hdrFeed_hdrFill_val (bytes : List Byte) (s : State) : (hdrFeed bytes s).ctx.hdrFill.val = s.ctx.hdrFill.val + hdrRoom s.ctx.hdrFill bytes := rfl

/-! ## feedHeaderCrc -/

@[simp] theorem feedHeaderCrc_magicCfg (s : State) : (feedHeaderCrc s).magicCfg = s.magicCfg := rfl
@[simp] theorem feedHeaderCrc_st (s : State) : (feedHeaderCrc s).st = s.st := rfl
@[simp] theorem feedHeaderCrc_err (s : State) : (feedHeaderCrc s).err = s.err := rfl
@[simp] theorem feedHeaderCrc_port (s : State) : (feedHeaderCrc s).port = s.port := rfl
@[simp] theorem feedHeaderCrc_sink (s : State) : (feedHeaderCrc s).sink = s.sink := rfl
@[simp] theorem feedHeaderCrc_results (s : State) : (feedHeaderCrc s).results = s.results := rfl
@[simp] theorem feedHeaderCrc_unitResult (s : State) : (feedHeaderCrc s).unitResult = s.unitResult := rfl
@[simp] theorem feedHeaderCrc_draws (s : State) : (feedHeaderCrc s).draws = s.draws := rfl
@[simp] theorem feedHeaderCrc_declaredLen (s : State) : (feedHeaderCrc s).ctx.declaredLen = s.ctx.declaredLen := rfl
@[simp] theorem feedHeaderCrc_received (s : State) : (feedHeaderCrc s).ctx.received = s.ctx.received := rfl
@[simp] theorem feedHeaderCrc_written (s : State) : (feedHeaderCrc s).ctx.written = s.ctx.written := rfl
@[simp] theorem feedHeaderCrc_crc (s : State) : (feedHeaderCrc s).ctx.crc = crcUpdate s.ctx.crc (hdrCovered s.ctx.hdr) := rfl
@[simp] theorem feedHeaderCrc_hdr (s : State) : (feedHeaderCrc s).ctx.hdr = s.ctx.hdr := rfl
@[simp] theorem feedHeaderCrc_hdrFill (s : State) : (feedHeaderCrc s).ctx.hdrFill = s.ctx.hdrFill := rfl
@[simp] theorem feedHeaderCrc_dict (s : State) : (feedHeaderCrc s).ctx.dict = s.ctx.dict := rfl
@[simp] theorem feedHeaderCrc_wcur (s : State) : (feedHeaderCrc s).ctx.wcur = s.ctx.wcur := rfl
@[simp] theorem feedHeaderCrc_bitq (s : State) : (feedHeaderCrc s).ctx.bitq = s.ctx.bitq := rfl

/-! ## lzInit -/

@[simp] theorem lzInit_magicCfg (tail : Vector Byte 17) (s : State) : (lzInit tail s).magicCfg = s.magicCfg := rfl
@[simp] theorem lzInit_st (tail : Vector Byte 17) (s : State) : (lzInit tail s).st = s.st := rfl
@[simp] theorem lzInit_err (tail : Vector Byte 17) (s : State) : (lzInit tail s).err = s.err := rfl
@[simp] theorem lzInit_port (tail : Vector Byte 17) (s : State) : (lzInit tail s).port = s.port := rfl
@[simp] theorem lzInit_sink (tail : Vector Byte 17) (s : State) : (lzInit tail s).sink = s.sink := rfl
@[simp] theorem lzInit_results (tail : Vector Byte 17) (s : State) : (lzInit tail s).results = s.results := rfl
@[simp] theorem lzInit_unitResult (tail : Vector Byte 17) (s : State) : (lzInit tail s).unitResult = s.unitResult := rfl
@[simp] theorem lzInit_draws (tail : Vector Byte 17) (s : State) : (lzInit tail s).draws = s.draws := rfl
@[simp] theorem lzInit_declaredLen (tail : Vector Byte 17) (s : State) : (lzInit tail s).ctx.declaredLen = s.ctx.declaredLen := rfl
@[simp] theorem lzInit_received (tail : Vector Byte 17) (s : State) : (lzInit tail s).ctx.received = s.ctx.received := rfl
@[simp] theorem lzInit_written (tail : Vector Byte 17) (s : State) : (lzInit tail s).ctx.written = s.ctx.written := rfl
@[simp] theorem lzInit_crc (tail : Vector Byte 17) (s : State) : (lzInit tail s).ctx.crc = s.ctx.crc := rfl
@[simp] theorem lzInit_hdr (tail : Vector Byte 17) (s : State) : (lzInit tail s).ctx.hdr = s.ctx.hdr := rfl
@[simp] theorem lzInit_hdrFill (tail : Vector Byte 17) (s : State) : (lzInit tail s).ctx.hdrFill = s.ctx.hdrFill := rfl
@[simp] theorem lzInit_dict (tail : Vector Byte 17) (s : State) : (lzInit tail s).ctx.dict = seededDict tail := rfl
@[simp] theorem lzInit_wcur (tail : Vector Byte 17) (s : State) : (lzInit tail s).ctx.wcur = initialCursor := rfl
@[simp] theorem lzInit_bitq (tail : Vector Byte 17) (s : State) : (lzInit tail s).ctx.bitq = .ofBits [] := rfl

/-! ## advance -/

@[simp] theorem advance_magicCfg (s : State) : (advance s).magicCfg = s.magicCfg := rfl
@[simp] theorem advance_st (s : State) : (advance s).st = s.st := rfl
@[simp] theorem advance_err (s : State) : (advance s).err = s.err := rfl
@[simp] theorem advance_port (s : State) : (advance s).port = s.port := rfl
@[simp] theorem advance_sink (s : State) : (advance s).sink = s.sink := rfl
@[simp] theorem advance_results (s : State) : (advance s).results = s.results := rfl
@[simp] theorem advance_unitResult (s : State) : (advance s).unitResult = s.unitResult := rfl
@[simp] theorem advance_draws (s : State) : (advance s).draws = s.draws := rfl
@[simp] theorem advance_declaredLen (s : State) : (advance s).ctx.declaredLen = s.ctx.declaredLen := rfl
@[simp] theorem advance_received (s : State) : (advance s).ctx.received = s.ctx.received := rfl
@[simp] theorem advance_written (s : State) : (advance s).ctx.written = s.ctx.written + 1 := rfl
@[simp] theorem advance_crc (s : State) : (advance s).ctx.crc = s.ctx.crc := rfl
@[simp] theorem advance_hdr (s : State) : (advance s).ctx.hdr = s.ctx.hdr := rfl
@[simp] theorem advance_hdrFill (s : State) : (advance s).ctx.hdrFill = s.ctx.hdrFill := rfl
@[simp] theorem advance_dict (s : State) : (advance s).ctx.dict = s.ctx.dict := rfl
@[simp] theorem advance_wcur (s : State) : (advance s).ctx.wcur = s.ctx.wcur + 1 := rfl
@[simp] theorem advance_bitq (s : State) : (advance s).ctx.bitq = s.ctx.bitq := rfl

/-! ## emit -/

@[simp] theorem emit_magicCfg (v : Byte) (s : State) : (emit v s).magicCfg = s.magicCfg := rfl
@[simp] theorem emit_st (v : Byte) (s : State) : (emit v s).st = s.st := rfl
@[simp] theorem emit_err (v : Byte) (s : State) : (emit v s).err = s.err := rfl
@[simp] theorem emit_port (v : Byte) (s : State) : (emit v s).port = s.port := rfl
@[simp] theorem emit_sink (v : Byte) (s : State) : (emit v s).sink = s.sink ++ [v] := rfl
@[simp] theorem emit_results (v : Byte) (s : State) : (emit v s).results = s.results := rfl
@[simp] theorem emit_unitResult (v : Byte) (s : State) : (emit v s).unitResult = s.unitResult := rfl
@[simp] theorem emit_draws (v : Byte) (s : State) : (emit v s).draws = s.draws := rfl
@[simp] theorem emit_declaredLen (v : Byte) (s : State) : (emit v s).ctx.declaredLen = s.ctx.declaredLen := rfl
@[simp] theorem emit_received (v : Byte) (s : State) : (emit v s).ctx.received = s.ctx.received := rfl
@[simp] theorem emit_written (v : Byte) (s : State) : (emit v s).ctx.written = s.ctx.written + 1 := rfl
@[simp] theorem emit_crc (v : Byte) (s : State) : (emit v s).ctx.crc = s.ctx.crc := rfl
@[simp] theorem emit_hdr (v : Byte) (s : State) : (emit v s).ctx.hdr = s.ctx.hdr := rfl
@[simp] theorem emit_hdrFill (v : Byte) (s : State) : (emit v s).ctx.hdrFill = s.ctx.hdrFill := rfl
@[simp] theorem emit_dict (v : Byte) (s : State) : (emit v s).ctx.dict = (dictWrite s.ctx.wcur.toNat v s).ctx.dict := rfl
@[simp] theorem emit_wcur (v : Byte) (s : State) : (emit v s).ctx.wcur = s.ctx.wcur + 1 := rfl
@[simp] theorem emit_bitq (v : Byte) (s : State) : (emit v s).ctx.bitq = s.ctx.bitq := rfl

/-! ## setBitq -/

@[simp] theorem setBitq_magicCfg (q : List Bool) (s : State) : (setBitq q s).magicCfg = s.magicCfg := rfl
@[simp] theorem setBitq_st (q : List Bool) (s : State) : (setBitq q s).st = s.st := rfl
@[simp] theorem setBitq_err (q : List Bool) (s : State) : (setBitq q s).err = s.err := rfl
@[simp] theorem setBitq_port (q : List Bool) (s : State) : (setBitq q s).port = s.port := rfl
@[simp] theorem setBitq_sink (q : List Bool) (s : State) : (setBitq q s).sink = s.sink := rfl
@[simp] theorem setBitq_results (q : List Bool) (s : State) : (setBitq q s).results = s.results := rfl
@[simp] theorem setBitq_unitResult (q : List Bool) (s : State) : (setBitq q s).unitResult = s.unitResult := rfl
@[simp] theorem setBitq_draws (q : List Bool) (s : State) : (setBitq q s).draws = s.draws := rfl
@[simp] theorem setBitq_declaredLen (q : List Bool) (s : State) : (setBitq q s).ctx.declaredLen = s.ctx.declaredLen := rfl
@[simp] theorem setBitq_received (q : List Bool) (s : State) : (setBitq q s).ctx.received = s.ctx.received := rfl
@[simp] theorem setBitq_written (q : List Bool) (s : State) : (setBitq q s).ctx.written = s.ctx.written := rfl
@[simp] theorem setBitq_crc (q : List Bool) (s : State) : (setBitq q s).ctx.crc = s.ctx.crc := rfl
@[simp] theorem setBitq_hdr (q : List Bool) (s : State) : (setBitq q s).ctx.hdr = s.ctx.hdr := rfl
@[simp] theorem setBitq_hdrFill (q : List Bool) (s : State) : (setBitq q s).ctx.hdrFill = s.ctx.hdrFill := rfl
@[simp] theorem setBitq_dict (q : List Bool) (s : State) : (setBitq q s).ctx.dict = s.ctx.dict := rfl
@[simp] theorem setBitq_wcur (q : List Bool) (s : State) : (setBitq q s).ctx.wcur = s.ctx.wcur := rfl
@[simp] theorem setBitq_bitq (q : List Bool) (s : State) : (setBitq q s).ctx.bitq = .ofBits q := rfl

/-! ## openContext -/

@[simp] theorem openContext_magicCfg (n : Word) (s : State) : (openContext n s).magicCfg = s.magicCfg := rfl
@[simp] theorem openContext_st (n : Word) (s : State) : (openContext n s).st = .header := rfl
@[simp] theorem openContext_err (n : Word) (s : State) : (openContext n s).err = Config.deadErr s.draws := rfl
@[simp] theorem openContext_port (n : Word) (s : State) : (openContext n s).port = s.port := rfl
@[simp] theorem openContext_sink (n : Word) (s : State) : (openContext n s).sink = s.sink := rfl
@[simp] theorem openContext_results (n : Word) (s : State) : (openContext n s).results = s.results := rfl
@[simp] theorem openContext_unitResult (n : Word) (s : State) : (openContext n s).unitResult = s.unitResult := rfl
@[simp] theorem openContext_draws (n : Word) (s : State) : (openContext n s).draws = s.draws + 1 := rfl
@[simp] theorem openContext_declaredLen (n : Word) (s : State) : (openContext n s).ctx.declaredLen = n := rfl
@[simp] theorem openContext_received (n : Word) (s : State) : (openContext n s).ctx.received = 0 := rfl
@[simp] theorem openContext_written (n : Word) (s : State) : (openContext n s).ctx.written = 0 := rfl
@[simp] theorem openContext_crc (n : Word) (s : State) : (openContext n s).ctx.crc = crcSeed := rfl
@[simp] theorem openContext_hdr (n : Word) (s : State) : (openContext n s).ctx.hdr = unfilledHdr s.draws := rfl
@[simp] theorem openContext_hdrFill (n : Word) (s : State) : (openContext n s).ctx.hdrFill = 0 := rfl
@[simp] theorem openContext_dict (n : Word) (s : State) : (openContext n s).ctx.dict = s.ctx.dict := rfl
@[simp] theorem openContext_wcur (n : Word) (s : State) : (openContext n s).ctx.wcur = s.ctx.wcur := rfl
@[simp] theorem openContext_bitq (n : Word) (s : State) : (openContext n s).ctx.bitq = s.ctx.bitq := rfl

/-! ## countReceived -/

@[simp] theorem countReceived_magicCfg (k : Nat) (s : State) : (countReceived k s).magicCfg = s.magicCfg := rfl
@[simp] theorem countReceived_st (k : Nat) (s : State) : (countReceived k s).st = s.st := rfl
@[simp] theorem countReceived_err (k : Nat) (s : State) : (countReceived k s).err = s.err := rfl
@[simp] theorem countReceived_port (k : Nat) (s : State) : (countReceived k s).port = s.port := rfl
@[simp] theorem countReceived_sink (k : Nat) (s : State) : (countReceived k s).sink = s.sink := rfl
@[simp] theorem countReceived_results (k : Nat) (s : State) : (countReceived k s).results = s.results := rfl
@[simp] theorem countReceived_unitResult (k : Nat) (s : State) : (countReceived k s).unitResult = s.unitResult := rfl
@[simp] theorem countReceived_draws (k : Nat) (s : State) : (countReceived k s).draws = s.draws := rfl
@[simp] theorem countReceived_declaredLen (k : Nat) (s : State) : (countReceived k s).ctx.declaredLen = s.ctx.declaredLen := rfl
@[simp] theorem countReceived_received (k : Nat) (s : State) : (countReceived k s).ctx.received = s.ctx.received + k := rfl
@[simp] theorem countReceived_written (k : Nat) (s : State) : (countReceived k s).ctx.written = s.ctx.written := rfl
@[simp] theorem countReceived_crc (k : Nat) (s : State) : (countReceived k s).ctx.crc = s.ctx.crc := rfl
@[simp] theorem countReceived_hdr (k : Nat) (s : State) : (countReceived k s).ctx.hdr = s.ctx.hdr := rfl
@[simp] theorem countReceived_hdrFill (k : Nat) (s : State) : (countReceived k s).ctx.hdrFill = s.ctx.hdrFill := rfl
@[simp] theorem countReceived_dict (k : Nat) (s : State) : (countReceived k s).ctx.dict = s.ctx.dict := rfl
@[simp] theorem countReceived_wcur (k : Nat) (s : State) : (countReceived k s).ctx.wcur = s.ctx.wcur := rfl
@[simp] theorem countReceived_bitq (k : Nat) (s : State) : (countReceived k s).ctx.bitq = s.ctx.bitq := rfl

end Sys2Proof.Machine
end

