-- ==== Sys2Proof/Laws/Dict.lean ====
section
/-! SUPPORT. The dictionary as a ring of bytes: read after write, what `emit` and a copy do to every index. -/

namespace Sys2Proof.Machine

/-- The index is reduced modulo 2048 (R61). -/
@[simp] theorem dictRead_mod (i : Nat) (s : State) : dictRead (i % 2048) s = dictRead i s := by
  simp [dictRead]

theorem dictRead_of_mod_eq {i j : Nat} (s : State) (h : i % 2048 = j % 2048) : dictRead i s = dictRead j s := by
  rw [← dictRead_mod i, h, dictRead_mod]

/-- A read depends on the dictionary alone. -/
theorem dictRead_congr {s t : State} (h : s.ctx.dict = t.ctx.dict) (i : Nat) : dictRead i s = dictRead i t := by
  simp [dictRead, h]

/-- Two dictionaries that read alike at every index are equal. -/
theorem dict_ext {s t : State} (h : ∀ i, dictRead i s = dictRead i t) : s.ctx.dict = t.ctx.dict := by
  ext i hi
  have := h i
  simp only [dictRead, Nat.mod_eq_of_lt hi] at this
  rw [this]

/-- Read after write. -/
theorem dictRead_dictWrite (i j : Nat) (v : Byte) (s : State) :
    dictRead j (dictWrite i v s) = if j % 2048 = i % 2048 then v else dictRead j s := by
  simp only [dictRead, dictWrite, Vector.getElem_set]
  by_cases h : i % 2048 = j % 2048
  · simp [h]
  · simp [h, Ne.symm h]

theorem cursor_lt (s : State) : s.ctx.wcur.toNat < 2048 := s.ctx.wcur.isLt

@[simp] theorem cursor_mod (s : State) : s.ctx.wcur.toNat % 2048 = s.ctx.wcur.toNat :=
  Nat.mod_eq_of_lt (cursor_lt s)

/-- What `emit` does to every index. -/
theorem dictRead_emit (v : Byte) (j : Nat) (s : State) :
    dictRead j (emit v s) = if j % 2048 = s.ctx.wcur.toNat then v else dictRead j s := by
  have h : dictRead j (emit v s) = dictRead j (dictWrite s.ctx.wcur.toNat v s) := rfl
  rw [h, dictRead_dictWrite, cursor_mod]

/-- The two regions of the seeded dictionary (R150). -/
theorem seededDict_getElem (tail : Vector Byte 17) (i : Nat) (h : i < 2048) :
    (seededDict tail)[i] = if g : i < 2031 then space else tail[i - 2031]'(by omega) := by
  simp only [seededDict, Vector.getElem_mk, List.getElem_toArray, List.getElem_append, List.length_replicate,
    List.getElem_replicate, Vector.getElem_toList]

/-- The seeded region of R150. -/
theorem dictRead_lzInit_seeded (tail : Vector Byte 17) (s : State) {i : Nat} (h : i < 2031) :
    dictRead i (lzInit tail s) = space := by
  simp only [dictRead, lzInit, seededDict_getElem]
  rw [dif_pos (by omega)]

/-- The tail of R150. -/
theorem dictRead_lzInit_tail (tail : Vector Byte 17) (s : State) (j : Fin 17) :
    dictRead (2031 + j.val) (lzInit tail s) = tail[j] := by
  have h1 : (2031 + j.val) % 2048 = 2031 + j.val := by omega
  simp only [dictRead, lzInit, seededDict_getElem, h1]
  rw [dif_neg (by omega)]
  simp

/-- A copy of `n + 1` bytes is a copy of `n` and one `emit` more. -/
theorem copyBytes_succ (n i : Nat) (s : State) :
    copyBytes (n + 1) i s = emit (dictRead (i + n) (copyBytes n i s)) (copyBytes n i s) := by
  induction n generalizing i s with
  | zero => rfl
  | succ n ih =>
    rw [copyBytes, ih]
    simp only [copyBytes, show i + 1 + n = i + (n + 1) by omega]

/-- The bytes a copy of `n` bytes emits, in order. -/
def copied : Nat → Nat → State → List Byte
  | 0, _, _ => []
  | n + 1, i, s => copied n i s ++ [dictRead (i + n) (copyBytes n i s)]

@[simp] theorem copied_length (n i : Nat) (s : State) : (copied n i s).length = n := by
  induction n with
  | zero => rfl
  | succ n ih => simp [copied, ih]

theorem copied_getD (n i : Nat) (s : State) {k : Nat} (hk : k < n) :
    (copied n i s).getD k 0 = dictRead (i + k) (copyBytes k i s) := by
  induction n with
  | zero => omega
  | succ n ih =>
    rcases Nat.lt_succ_iff_lt_or_eq.mp hk with h | rfl
    · rw [copied, List.getD_append _ _ _ _ (by simpa using h), ih h]
    · rw [copied, List.getD_append_right _ _ _ _ (by simp)]
      simp

/-- The cursor after `n` copied bytes. -/
theorem copyBytes_wcur (n i : Nat) (s : State) :
    (copyBytes n i s).ctx.wcur = s.ctx.wcur + BitVec.ofNat 11 n := by
  induction n with
  | zero => simp [copyBytes]
  | succ n ih =>
    rw [copyBytes_succ, emit_wcur, ih, BitVec.ofNat_add]
    simp [BitVec.add_assoc]

/-- The cursor after `n` bytes as an index. -/
theorem cursor_add_toNat (n : Nat) (s : State) :
    (s.ctx.wcur + BitVec.ofNat 11 n).toNat = (s.ctx.wcur.toNat + n) % 2048 := by
  simp [BitVec.toNat_add, BitVec.toNat_ofNat]

/-- What a copy of at most 2048 bytes does to every index: the byte emitted at the distance of the index from the
cursor if the copy has come that far, the old byte otherwise. -/
theorem dictRead_copyBytes (n i j : Nat) (s : State) (hn : n ≤ 2048) :
    dictRead j (copyBytes n i s) =
      (if (j + 2048 - s.ctx.wcur.toNat) % 2048 < n
        then (copied n i s).getD ((j + 2048 - s.ctx.wcur.toNat) % 2048) 0 else dictRead j s) := by
  -- an index is the cursor's exactly when its distance is the number of bytes copied so far
  induction n with
  | zero => simp [copyBytes]
  | succ n ih =>
    have hw := cursor_lt s
    have key : j % 2048 = (copyBytes n i s).ctx.wcur.toNat ↔ (j + 2048 - s.ctx.wcur.toNat) % 2048 = n := by
      rw [copyBytes_wcur, cursor_add_toNat]
      generalize hc : s.ctx.wcur.toNat = c at *
      have h1 := Nat.mod_lt j (by decide : 0 < 2048)
      constructor
      · intro h
        omega
      · intro h
        omega
    rw [copyBytes_succ, dictRead_emit, ih (by omega)]
    generalize (j + 2048 - s.ctx.wcur.toNat) % 2048 = d at *
    by_cases hd : d = n
    · subst hd
      rw [if_pos (key.mpr rfl), if_pos (Nat.lt_succ_self _), copied_getD _ _ _ (Nat.lt_succ_self _)]
    · rw [if_neg (fun h => hd (key.mp h))]
      by_cases hlt : d < n
      · rw [if_pos hlt, if_pos (by omega), copied_getD _ _ _ hlt, copied_getD _ _ _ (by omega)]
      · rw [if_neg hlt, if_neg (by omega)]

end Sys2Proof.Machine
end

