-- ==== Sys2Proof/Laws/Hdr.lean ====
section
/-! SUPPORT. The header buffer: what the copy loop writes at every index, and when the header is complete. -/

namespace Sys2Proof.Machine

/-- What the copy loop of R130 leaves at every index. -/
theorem hdrCopy_getElem (bytes : List Byte) (i : Nat) (h : Vector Byte 20) (j : Nat) (hj : j < 20) :
    (hdrCopy bytes i h)[j] = if i ≤ j ∧ j < i + bytes.length then bytes.getD (j - i) 0 else h[j] := by
  induction bytes generalizing i h with
  | nil => simp [hdrCopy]
  | cons b bytes ih =>
    rw [hdrCopy, ih]
    by_cases hji : j = i
    · subst hji
      simp
    · rw [Vector.getElem_setIfInBounds hj, if_neg (Ne.symm hji)]
      by_cases h1 : i + 1 ≤ j ∧ j < i + 1 + bytes.length
      · rw [if_pos h1, if_pos (by simp; omega)]
        obtain ⟨m, rfl⟩ : ∃ m, j = i + 1 + m := ⟨j - (i + 1), by omega⟩
        rw [show i + 1 + m - (i + 1) = m by omega, show i + 1 + m - i = m + 1 by omega]
        simp
      · rw [if_neg h1, if_neg (by simp; omega)]

/-- Copying a sequence is copying its parts one after the other. -/
theorem hdrCopy_append (a b : List Byte) (i : Nat) (h : Vector Byte 20) :
    hdrCopy (a ++ b) i h = hdrCopy b (i + a.length) (hdrCopy a i h) := by
  induction a generalizing i h with
  | nil => simp [hdrCopy]
  | cons x a ih => rw [List.cons_append, hdrCopy, ih, hdrCopy, List.length_cons, Nat.add_assoc, Nat.add_comm 1]

theorem hdrRoom_le_length (fill : Fin 21) (bytes : List Byte) : hdrRoom fill bytes ≤ bytes.length := by
  unfold hdrRoom; omega

theorem hdrRoom_le_room (fill : Fin 21) (bytes : List Byte) : fill.val + hdrRoom fill bytes ≤ 20 := by
  unfold hdrRoom; omega

/-- What `hdr_feed` leaves at every index (R130). -/
theorem hdrFeed_getElem (bytes : List Byte) (s : State) (j : Nat) (hj : j < 20) :
    (hdrFeed bytes s).ctx.hdr[j] =
      if s.ctx.hdrFill.val ≤ j ∧ j < s.ctx.hdrFill.val + hdrRoom s.ctx.hdrFill bytes
        then bytes.getD (j - s.ctx.hdrFill.val) 0 else s.ctx.hdr[j] := by
  have hk := hdrRoom_le_length s.ctx.hdrFill bytes
  simp only [hdrFeed_hdr, hdrCopy_getElem, List.length_take, Nat.min_eq_left hk]
  split
  · rename_i h
    simp only [List.getD_eq_getElem?_getD]
    rw [List.getElem?_take_of_lt (by omega)]
  · rfl

/-- `header_complete` after a feed: the chunk reached the end of the header (R131). -/
theorem headerComplete_hdrFeed (bytes : List Byte) (s : State) (k : Nat) :
    headerComplete (countReceived k (hdrFeed bytes s)) = true ↔ 20 ≤ s.ctx.hdrFill.val + bytes.length := by
  have := s.ctx.hdrFill.isLt
  simp only [headerComplete, countReceived_hdrFill, hdrFeed_hdrFill_val, beq_iff_eq, hdrRoom]
  omega

/-- The three verdicts of `hdr_validate` (R133). -/
theorem hdrValidate_cases (s : State) :
    (hdrValidate s = .lengthMismatch ∧ (hdrLength s.ctx.hdr).toNat + 8 ≠ s.ctx.declaredLen.toNat) ∨
    (hdrValidate s = .magicMismatch ∧ (hdrLength s.ctx.hdr).toNat + 8 = s.ctx.declaredLen.toNat ∧
      hdrMagic s.ctx.hdr ≠ s.magicCfg) ∨
    (hdrValidate s = .ok ∧ (hdrLength s.ctx.hdr).toNat + 8 = s.ctx.declaredLen.toNat ∧
      hdrMagic s.ctx.hdr = s.magicCfg) := by
  unfold hdrValidate
  by_cases h1 : (hdrLength s.ctx.hdr).toNat + 8 = s.ctx.declaredLen.toNat
  · by_cases h2 : hdrMagic s.ctx.hdr = s.magicCfg
    · exact .inr (.inr ⟨by simp [h1, h2], h1, h2⟩)
    · exact .inr (.inl ⟨by simp [h1, h2], h1, h2⟩)
  · exact .inl ⟨by simp [h1], h1⟩

end Sys2Proof.Machine
end

