-- ==== Sys2Proof/Laws/Lz.lean ====
section
/-! SUPPORT. Everything the decoder can do: it emits some bytes and changes nothing else but its own elements. -/

namespace Sys2Proof.Machine

/-- `t` is `s` after the decoder has emitted `out`: the sink, the count and the cursor move by `out`, the dictionary and
the pending bits are the decoder's, and nothing else differs. -/
def Emitted (out : List Byte) (s t : State) : Prop :=
  t = { s with
    sink := s.sink ++ out
    ctx := { s.ctx with
      dict := t.ctx.dict, bitq := t.ctx.bitq
      wcur := s.ctx.wcur + BitVec.ofNat 11 out.length, written := s.ctx.written + out.length } }

theorem Emitted.refl (s : State) : Emitted [] s s := by simp [Emitted]

theorem Emitted.trans {a b : List Byte} {s t u : State} (h1 : Emitted a s t) (h2 : Emitted b t u) :
    Emitted (a ++ b) s u := by
  unfold Emitted at h1 h2 ⊢
  have hs : t.sink = s.sink ++ a := by rw [h1]
  have hw : t.ctx.wcur = s.ctx.wcur + BitVec.ofNat 11 a.length := by rw [h1]
  have hn : t.ctx.written = s.ctx.written + a.length := by rw [h1]
  rw [h2, hs, hw, hn, h1]
  simp [BitVec.ofNat_add, BitVec.add_assoc, Nat.add_assoc]

/-- The emitted bytes are determined by the two states. -/
theorem Emitted.unique {a b : List Byte} {s t : State} (h : Emitted a s t) (h' : Emitted b s t) : a = b := by
  have h1 : t.sink = s.sink ++ a := by rw [h]
  have h2 : t.sink = s.sink ++ b := by rw [h']
  simpa using h1.symm.trans h2

theorem emitted_emit (v : Byte) (s : State) : Emitted [v] s (emit v s) := by
  simp [Emitted, emit, sinkWrite, advance, dictWrite]

theorem emitted_setBitq (q : List Bool) (s : State) : Emitted [] s (setBitq q s) := by
  simp [Emitted, setBitq]

theorem emitted_copyBytes (n i : Nat) (s : State) : Emitted (copied n i s) s (copyBytes n i s) := by
  induction n with
  | zero => exact Emitted.refl s
  | succ n ih =>
    rw [copyBytes_succ]
    exact ih.trans (emitted_emit _ _)

/-- A copy leaves the pending bits. -/
@[simp] theorem copyBytes_bitq (n i : Nat) (s : State) : (copyBytes n i s).ctx.bitq = s.ctx.bitq := by
  induction n with
  | zero => rfl
  | succ n ih => rw [copyBytes_succ, emit_bitq, ih]

/-- A token leaves the pending bits. -/
@[simp] theorem runToken_bitq (tok : Token) (s : State) : (runToken tok s).ctx.bitq = s.ctx.bitq := by
  cases tok with
  | lit d => rfl
  | ref off len => exact copyBytes_bitq _ _ _

/-- Setting the pending bits commutes with a copy. -/
theorem copyBytes_setBitq (n i : Nat) (q : List Bool) (s : State) :
    copyBytes n i (setBitq q s) = setBitq q (copyBytes n i s) := by
  induction n with
  | zero => rfl
  | succ n ih =>
    rw [copyBytes_succ, copyBytes_succ, ih]
    rfl

/-- A token neither reads nor writes the pending bits. -/
theorem runToken_setBitq (tok : Token) (q : List Bool) (s : State) :
    runToken tok (setBitq q s) = setBitq q (runToken tok s) := by
  cases tok with
  | lit d => rfl
  | ref off len => exact copyBytes_setBitq _ _ _ _

/-- A token emits 1 to 17 bytes (R153, R154). -/
theorem emitted_runToken (tok : Token) (s : State) :
    ∃ out, Emitted out s (runToken tok s) ∧ 1 ≤ out.length ∧ out.length ≤ 17 := by
  cases tok with
  | lit d => exact ⟨[d], emitted_emit d s, by simp, by simp⟩
  | ref off len =>
    refine ⟨_, emitted_copyBytes _ _ s, ?_, ?_⟩
    · simp
    · have := len.isLt
      simp
      omega

/-- Everything a payload byte can do to the decoder (R152): no token completes, or exactly one does and runs. Either way
the bits it stores fit the queue. -/
theorem lzFeedByte_cases (b : Byte) (s : State) :
    (decodeToken (s.ctx.bitq.bits ++ msb8 b) = none ∧ (s.ctx.bitq.bits ++ msb8 b).length ≤ 15 ∧
      lzFeedByte b s = setBitq (s.ctx.bitq.bits ++ msb8 b) s) ∨
    (∃ tok r, decodeToken (s.ctx.bitq.bits ++ msb8 b) = some (tok, r) ∧ r.length ≤ 14 ∧
      lzFeedByte b s = setBitq r (runToken tok s)) := by
  obtain ⟨hn, hr⟩ := queue_room s.ctx.bitq b
  unfold lzFeedByte
  cases h : decodeToken (s.ctx.bitq.bits ++ msb8 b) with
  | none => exact .inl ⟨rfl, hn h, rfl⟩
  | some p => exact .inr ⟨p.1, p.2, rfl, hr _ _ h, runToken_setBitq _ _ _⟩

/-- A payload byte emits at most 17 bytes and touches the decoder's elements only. -/
theorem emitted_lzFeedByte (b : Byte) (s : State) : ∃ out, Emitted out s (lzFeedByte b s) ∧ out.length ≤ 17 := by
  rcases lzFeedByte_cases b s with ⟨-, -, h⟩ | ⟨tok, r, -, -, h⟩
  · exact ⟨[], h ▸ emitted_setBitq _ _, by simp⟩
  · obtain ⟨out, ho, -, hl⟩ := emitted_runToken tok s
    exact ⟨out, by simpa [h] using ho.trans (emitted_setBitq r _), hl⟩

@[simp] theorem lzFeed_nil (s : State) : lzFeed [] s = s := rfl

@[simp] theorem lzFeed_cons (b : Byte) (bytes : List Byte) (s : State) :
    lzFeed (b :: bytes) s = lzFeed bytes (lzFeedByte b s) := rfl

theorem lzFeed_append (a b : List Byte) (s : State) : lzFeed (a ++ b) s = lzFeed b (lzFeed a s) := by
  simp [lzFeed, List.foldl_append]

/-- Any payload touches the decoder's elements only. -/
theorem emitted_lzFeed (bytes : List Byte) (s : State) :
    ∃ out, Emitted out s (lzFeed bytes s) ∧ out.length ≤ 17 * bytes.length := by
  induction bytes generalizing s with
  | nil => exact ⟨[], Emitted.refl s, by simp⟩
  | cons b bytes ih =>
    obtain ⟨x, hx, hxl⟩ := emitted_lzFeedByte b s
    obtain ⟨y, hy, hyl⟩ := ih (lzFeedByte b s)
    exact ⟨x ++ y, hx.trans hy, by simp; omega⟩

/-! ## What the decoder reads -/

/-- The two states have the same decoder: dictionary, cursor and pending bits. -/
def SameDecoder (s t : State) : Prop :=
  s.ctx.dict = t.ctx.dict ∧ s.ctx.wcur = t.ctx.wcur ∧ s.ctx.bitq = t.ctx.bitq

theorem sameDecoder_emit {s t : State} (v : Byte) (h : SameDecoder s t) : SameDecoder (emit v s) (emit v t) := by
  obtain ⟨hd, hw, hq⟩ := h
  exact ⟨by simp [dictWrite, hd, hw], by simp [hw], by simp [hq]⟩

theorem sameDecoder_copyBytes {s t : State} (n i : Nat) (h : SameDecoder s t) :
    SameDecoder (copyBytes n i s) (copyBytes n i t) ∧ copied n i s = copied n i t := by
  induction n with
  | zero => exact ⟨h, rfl⟩
  | succ n ih =>
    have hr := dictRead_congr ih.1.1 (i + n)
    rw [copyBytes_succ, copyBytes_succ, copied, copied, hr, ih.2]
    exact ⟨sameDecoder_emit _ ih.1, rfl⟩

/-- Same decoder, same payload byte: same output, same decoder again. -/
theorem sameDecoder_lzFeedByte {s t : State} (b : Byte) (h : SameDecoder s t) :
    ∃ out, Emitted out s (lzFeedByte b s) ∧ Emitted out t (lzFeedByte b t) ∧
      SameDecoder (lzFeedByte b s) (lzFeedByte b t) := by
  obtain ⟨hd, hw, hq⟩ := h
  unfold lzFeedByte
  rw [hq]
  cases decodeToken (t.ctx.bitq.bits ++ msb8 b) with
  | none => exact ⟨[], emitted_setBitq _ _, emitted_setBitq _ _, hd, hw, rfl⟩
  | some p =>
    obtain ⟨tok, r⟩ := p
    have hs : SameDecoder (setBitq r s) (setBitq r t) := ⟨hd, hw, rfl⟩
    cases tok with
    | lit d =>
      exact ⟨[d], (emitted_setBitq r s).trans (emitted_emit d _), (emitted_setBitq r t).trans (emitted_emit d _),
        sameDecoder_emit d hs⟩
    | ref off len =>
      obtain ⟨h1, h2⟩ := sameDecoder_copyBytes (len.toNat + 2) off.toNat hs
      refine ⟨copied (len.toNat + 2) off.toNat (setBitq r s),
        (emitted_setBitq r s).trans (emitted_copyBytes _ _ _), ?_, h1⟩
      rw [h2]
      exact (emitted_setBitq r t).trans (emitted_copyBytes _ _ _)

/-- Same decoder, same payload: same output, same decoder again. -/
theorem sameDecoder_lzFeed {s t : State} (bytes : List Byte) (h : SameDecoder s t) :
    ∃ out, out.length ≤ 17 * bytes.length ∧ Emitted out s (lzFeed bytes s) ∧ Emitted out t (lzFeed bytes t) ∧
      SameDecoder (lzFeed bytes s) (lzFeed bytes t) := by
  induction bytes generalizing s t with
  | nil => exact ⟨[], by simp, Emitted.refl s, Emitted.refl t, h⟩
  | cons b bytes ih =>
    obtain ⟨x, hx, hx', hs⟩ := sameDecoder_lzFeedByte b h
    obtain ⟨x2, hx2, hl⟩ := emitted_lzFeedByte b s
    have hxx : x = x2 := by
      have h1 : (lzFeedByte b s).sink = s.sink ++ x := by rw [hx]
      have h2 : (lzFeedByte b s).sink = s.sink ++ x2 := by rw [hx2]
      simpa using h1.symm.trans h2
    obtain ⟨y, hyl, hy, hy', hs'⟩ := ih hs
    exact ⟨x ++ y, by simp [hxx]; omega, hx.trans hy, hx'.trans hy', hs'⟩

end Sys2Proof.Machine
end

