-- ==== Sys2Proof/Laws/Fsm.lean ====
section
/-! SUPPORT. Everything a POLL can do, said once: the routing of payload bytes as one update, the three ends of the
completion test, the ends of a header completion. -/

namespace Sys2Proof.Machine

theorem routeBytes_cons (b : Byte) (bytes : List Byte) (s : State) :
    routeBytes (b :: bytes) s = routeBytes bytes (routeByte b s) := rfl

/-- Everything the routing of payload bytes does (R186), in terms of the decoder alone: the checksum is folded, the
decoder is fed, the two do not touch each other (R75), and nothing else changes. -/
theorem routeBytes_spec {s t : State} (bytes : List Byte) (h : SameDecoder s t) :
    ∃ out, out.length ≤ 17 * bytes.length ∧ Emitted out t (lzFeed bytes t) ∧
      routeBytes bytes s = { s with
        sink := s.sink ++ out
        ctx := { s.ctx with
          crc := crcUpdate s.ctx.crc bytes, dict := (lzFeed bytes t).ctx.dict, bitq := (lzFeed bytes t).ctx.bitq
          wcur := (lzFeed bytes t).ctx.wcur, written := s.ctx.written + out.length } } := by
  induction bytes generalizing s t with
  | nil =>
    obtain ⟨hd, hw, hq⟩ := h
    exact ⟨[], by simp, Emitted.refl t, by simp [routeBytes, crcUpdate, ← hd, ← hw, ← hq]⟩
  | cons b bytes ih =>
    have hc : SameDecoder (setCrc (crcStep s.ctx.crc b) s) t := h
    obtain ⟨x, hx, hx', hs⟩ := sameDecoder_lzFeedByte b hc
    obtain ⟨y, hyl, hy, hr⟩ := ih hs
    obtain ⟨x2, hx2, hl⟩ := emitted_lzFeedByte b t
    have hxx : x = x2 := by
      have h1 : (lzFeedByte b t).sink = t.sink ++ x := by rw [hx']
      have h2 : (lzFeedByte b t).sink = t.sink ++ x2 := by rw [hx2]
      simpa using h1.symm.trans h2
    refine ⟨x ++ y, by simp [hxx]; omega, hx'.trans hy, ?_⟩
    rw [routeBytes_cons, routeByte, hr, hx]
    simp [crcUpdate, setCrc, Nat.add_assoc]

/-- The end of a POLL that reached File (R187). -/
theorem completionCheck_cases (s : State) :
    (s.ctx.received = s.ctx.declaredLen.toNat ∧ completionCheck s = answer .done (setPhase .completed s)) ∨
    (s.ctx.declaredLen.toNat < s.ctx.received ∧ completionCheck s = raise .download s) ∨
    (s.ctx.received < s.ctx.declaredLen.toNat ∧ completionCheck s = answer .inProgress s) := by
  unfold completionCheck
  rcases Nat.lt_trichotomy s.ctx.received s.ctx.declaredLen.toNat with h | h | h
  · refine .inr (.inr ⟨h, ?_⟩)
    rw [if_neg (by simp [exhausted]; omega), if_neg (by simp [overrun]; omega)]
  · exact .inl ⟨h, by rw [if_pos (by simp [exhausted, h])]⟩
  · refine .inr (.inl ⟨h, ?_⟩)
    rw [if_neg (by simp [exhausted]; omega), if_pos (by simp [overrun, h])]

/-- The state a POLL tests in File: every byte routed and counted (R186). -/
def routed (bytes : List Byte) (s : State) : State := countReceived bytes.length (routeBytes bytes s)

theorem pollFile_eq (bytes : List Byte) (s : State) : pollFile bytes s = completionCheck (routed bytes s) := rfl

/-- The routed state differs from the one before in the decoder's elements, the checksum and the count. -/
theorem routed_spec {s t : State} (bytes : List Byte) (h : SameDecoder s t) :
    ∃ out, out.length ≤ 17 * bytes.length ∧ Emitted out t (lzFeed bytes t) ∧
      routed bytes s = { s with
        sink := s.sink ++ out
        ctx := { s.ctx with
          crc := crcUpdate s.ctx.crc bytes, received := s.ctx.received + bytes.length
          dict := (lzFeed bytes t).ctx.dict, bitq := (lzFeed bytes t).ctx.bitq
          wcur := (lzFeed bytes t).ctx.wcur, written := s.ctx.written + out.length } } := by
  obtain ⟨out, hl, he, hr⟩ := routeBytes_spec bytes h
  exact ⟨out, hl, he, by rw [routed, hr]; rfl⟩

@[simp] theorem routed_magicCfg (bytes : List Byte) (s : State) : (routed bytes s).magicCfg = s.magicCfg := by
  obtain ⟨_, _, _, h⟩ := routed_spec (t := s) bytes ⟨rfl, rfl, rfl⟩
  rw [h]

@[simp] theorem routed_st (bytes : List Byte) (s : State) : (routed bytes s).st = s.st := by
  obtain ⟨_, _, _, h⟩ := routed_spec (t := s) bytes ⟨rfl, rfl, rfl⟩
  rw [h]

@[simp] theorem routed_err (bytes : List Byte) (s : State) : (routed bytes s).err = s.err := by
  obtain ⟨_, _, _, h⟩ := routed_spec (t := s) bytes ⟨rfl, rfl, rfl⟩
  rw [h]

@[simp] theorem routed_port (bytes : List Byte) (s : State) : (routed bytes s).port = s.port := by
  obtain ⟨_, _, _, h⟩ := routed_spec (t := s) bytes ⟨rfl, rfl, rfl⟩
  rw [h]

@[simp] theorem routed_results (bytes : List Byte) (s : State) : (routed bytes s).results = s.results := by
  obtain ⟨_, _, _, h⟩ := routed_spec (t := s) bytes ⟨rfl, rfl, rfl⟩
  rw [h]

@[simp] theorem routed_unitResult (bytes : List Byte) (s : State) : (routed bytes s).unitResult = s.unitResult := by
  obtain ⟨_, _, _, h⟩ := routed_spec (t := s) bytes ⟨rfl, rfl, rfl⟩
  rw [h]

@[simp] theorem routed_draws (bytes : List Byte) (s : State) : (routed bytes s).draws = s.draws := by
  obtain ⟨_, _, _, h⟩ := routed_spec (t := s) bytes ⟨rfl, rfl, rfl⟩
  rw [h]

@[simp] theorem routed_declaredLen (bytes : List Byte) (s : State) : (routed bytes s).ctx.declaredLen = s.ctx.declaredLen := by
  obtain ⟨_, _, _, h⟩ := routed_spec (t := s) bytes ⟨rfl, rfl, rfl⟩
  rw [h]

@[simp] theorem routed_received (bytes : List Byte) (s : State) : (routed bytes s).ctx.received = s.ctx.received + bytes.length := by
  obtain ⟨_, _, _, h⟩ := routed_spec (t := s) bytes ⟨rfl, rfl, rfl⟩
  rw [h]

@[simp] theorem routed_crc (bytes : List Byte) (s : State) : (routed bytes s).ctx.crc = crcUpdate s.ctx.crc bytes := by
  obtain ⟨_, _, _, h⟩ := routed_spec (t := s) bytes ⟨rfl, rfl, rfl⟩
  rw [h]

@[simp] theorem routed_hdr (bytes : List Byte) (s : State) : (routed bytes s).ctx.hdr = s.ctx.hdr := by
  obtain ⟨_, _, _, h⟩ := routed_spec (t := s) bytes ⟨rfl, rfl, rfl⟩
  rw [h]

@[simp] theorem routed_hdrFill (bytes : List Byte) (s : State) : (routed bytes s).ctx.hdrFill = s.ctx.hdrFill := by
  obtain ⟨_, _, _, h⟩ := routed_spec (t := s) bytes ⟨rfl, rfl, rfl⟩
  rw [h]

/-- The ends of a POLL that completes the header (R185). -/
theorem headerDone_cases (rest : List Byte) (s : State) :
    (headerDone rest s = raise .hdrLength (feedHeaderCrc s) ∧
      (hdrLength s.ctx.hdr).toNat + 8 ≠ s.ctx.declaredLen.toNat) ∨
    (headerDone rest s = raise .hdrMagic (feedHeaderCrc s) ∧
      (hdrLength s.ctx.hdr).toNat + 8 = s.ctx.declaredLen.toNat ∧ hdrMagic s.ctx.hdr ≠ s.magicCfg) ∨
    (headerDone rest s = pollFile rest (setPhase .file (feedHeaderCrc s)) ∧
      (hdrLength s.ctx.hdr).toNat + 8 = s.ctx.declaredLen.toNat ∧ hdrMagic s.ctx.hdr = s.magicCfg) := by
  unfold headerDone
  rcases hdrValidate_cases (feedHeaderCrc s) with ⟨h, a⟩ | ⟨h, a, b⟩ | ⟨h, a, b⟩
  · exact .inl ⟨by simp only [h], a⟩
  · exact .inr (.inl ⟨by simp only [h], a, b⟩)
  · exact .inr (.inr ⟨by simp only [h], a, b⟩)

/-- A POLL in Header: the header stays incomplete, or it completes (R184). -/
theorem pollHeader_cases (chunk : List Byte) (s : State) :
    (s.ctx.hdrFill.val + chunk.length < 20 ∧
      pollHeader chunk s = answer .inProgress (countReceived chunk.length (hdrFeed chunk s))) ∨
    (20 ≤ s.ctx.hdrFill.val + chunk.length ∧
      pollHeader chunk s = headerDone (chunk.drop (20 - s.ctx.hdrFill.val))
        (countReceived (20 - s.ctx.hdrFill.val) (hdrFeed chunk s))) := by
  by_cases h : 20 ≤ s.ctx.hdrFill.val + chunk.length
  · have hk : hdrRoom s.ctx.hdrFill chunk = 20 - s.ctx.hdrFill.val := by unfold hdrRoom; omega
    refine .inr ⟨h, ?_⟩
    simp only [pollHeader, hk]
    rw [if_pos ((headerComplete_hdrFeed _ _ _).mpr h)]
  · have hk : hdrRoom s.ctx.hdrFill chunk = chunk.length := by unfold hdrRoom; omega
    refine .inl ⟨by omega, ?_⟩
    simp only [pollHeader, hk]
    rw [if_neg (fun hc => h ((headerComplete_hdrFeed _ _ _).mp hc))]

/-- A POLL in each state (R183). -/
theorem poll_header {s : State} (h : s.st = .header) (c : List Byte) : poll c s = pollHeader c s := by simp [poll, h]

theorem poll_file {s : State} (h : s.st = .file) (c : List Byte) : poll c s = pollFile c s := by simp [poll, h]

theorem poll_completed {s : State} (h : s.st = .completed) (c : List Byte) : poll c s = answer .done s := by
  simp [poll, h]

theorem poll_idle {s : State} (h : s.st = .idle) (c : List Byte) : poll c s = refuse .download s := by simp [poll, h]

theorem poll_error {s : State} (h : s.st = .magicMismatch ∨ s.st = .error) (c : List Byte) :
    poll c s = answer (.err s.err) s := by
  rcases h with h | h <;> simp [poll, h]

/-! ## The other commands -/

/-- RELEASE leaves Idle as it is and everything else through the death of the context (R193). -/
theorem teardown_cases (s : State) :
    (teardown s = s ∧ s.st = .idle) ∨
    (teardown s = { dropContext s with st := .idle, err := Config.deadErr s.draws } ∧ s.st ≠ .idle) := by
  unfold teardown
  split
  · exact .inl ⟨rfl, ‹_›⟩
  · exact .inr ⟨rfl, ‹_›⟩

/-- START is refused, or opens a context (R182). -/
theorem execStart_cases (n : Word) (s : State) :
    (s.st.active = true ∧ execStart n s = .next (refuse .download s)) ∨
    (s.st.active = false ∧
      execStart n s = .next (answer (.count n.toNat) (lzInit (dictTailInit s.draws) (openContext n s)))) := by
  unfold execStart
  cases h : s.st.active <;> simp

/-- CFG_MAGIC is refused, or writes `magic_cfg` (R181). -/
theorem execCfgMagic_cases (m : Word) (s : State) :
    (s.st.active = true ∧ execCfgMagic m s = .next (refuse .download s)) ∨
    (s.st.active = false ∧ execCfgMagic m s = .next (answer .done { s with magicCfg := m })) := by
  unfold execCfgMagic
  cases h : s.st.active <;> simp

/-- Routing a sequence is routing its parts one after the other. -/
theorem routed_append (a b : List Byte) (s : State) : routed (a ++ b) s = routed b (routed a s) := by
  have split : routeBytes (a ++ b) s = routeBytes b (routeBytes a s) := by simp [routeBytes]
  have comm : ∀ k u, routeBytes b (countReceived k u) = countReceived k (routeBytes b u) := by
    intro k u
    obtain ⟨x, _, hx, h⟩ := routeBytes_spec (s := countReceived k u) (t := u) b ⟨rfl, rfl, rfl⟩
    obtain ⟨y, _, hy, h'⟩ := routeBytes_spec (s := u) (t := u) b ⟨rfl, rfl, rfl⟩
    rw [h, h', hx.unique hy]
    rfl
  unfold routed
  rw [comm, split]
  simp [countReceived, Nat.add_assoc]

end Sys2Proof.Machine
end

