-- ==== Sys2Proof/Laws/PerInstr.lean ====
section
/-! SUPPORT. What holds of every row of the opcode table, one lemma per constructor: the encoder answers exactly for the
rows that have a wire encoding, and what it answers is something the port or the payload can carry (R85 to R89). -/

namespace Sys2Proof

/-- What can stand on the wire: a well-formed transaction, or the bits of one token at their full length (R85, R86). -/
def Encoded.carried : Encoded → Prop
  | .command t => t.wellFormed = true
  | .token bits => (bits.length = 9 ∧ bits.head? = some true) ∨ (bits.length = 16 ∧ bits.head? = some false)

/-- The family's statement: see the file's first words. -/
def Laws.EncodesCarried.Statement (i : Instr) : Prop :=
  (encode i).isSome = i.encodable ∧ ∀ e, encode i = some e → e.carried

theorem Laws.EncodesCarried.reserved0 : Laws.EncodesCarried.Statement .reserved0 := ⟨rfl, by rintro _ ⟨⟩; rfl⟩

theorem Laws.EncodesCarried.cfgMagic (m : Word) : Laws.EncodesCarried.Statement (.cfgMagic m) :=
  ⟨rfl, by rintro _ ⟨⟩; rfl⟩

theorem Laws.EncodesCarried.start (n : Word) : Laws.EncodesCarried.Statement (.start n) :=
  ⟨rfl, by rintro _ ⟨⟩; rfl⟩

theorem Laws.EncodesCarried.poll (chunk : List Byte) : Laws.EncodesCarried.Statement (.poll chunk) :=
  ⟨rfl, by rintro _ ⟨⟩; rfl⟩

theorem Laws.EncodesCarried.progress : Laws.EncodesCarried.Statement .progress := ⟨rfl, by rintro _ ⟨⟩; rfl⟩

theorem Laws.EncodesCarried.verify : Laws.EncodesCarried.Statement .verify := ⟨rfl, by rintro _ ⟨⟩; rfl⟩

theorem Laws.EncodesCarried.release : Laws.EncodesCarried.Statement .release := ⟨rfl, by rintro _ ⟨⟩; rfl⟩

theorem Laws.EncodesCarried.reserved7 : Laws.EncodesCarried.Statement .reserved7 := ⟨rfl, by rintro _ ⟨⟩; rfl⟩

theorem Laws.EncodesCarried.lit (d : Byte) : Laws.EncodesCarried.Statement (.lit d) :=
  ⟨rfl, by rintro _ ⟨⟩; exact .inl ⟨encodeToken_lit_length d, rfl⟩⟩

theorem Laws.EncodesCarried.ref (off : BitVec 11) (len : BitVec 4) : Laws.EncodesCarried.Statement (.ref off len) :=
  ⟨rfl, by rintro _ ⟨⟩; exact .inr ⟨encodeToken_ref_length off len, rfl⟩⟩

theorem Laws.EncodesCarried.crcInit : Laws.EncodesCarried.Statement .crcInit := ⟨rfl, by rintro _ ⟨⟩⟩

theorem Laws.EncodesCarried.crcStep (c : Word) (b : Byte) : Laws.EncodesCarried.Statement (.crcStep c b) :=
  ⟨rfl, by rintro _ ⟨⟩⟩

theorem Laws.EncodesCarried.crcUpdate (c : Word) (bytes : List Byte) :
    Laws.EncodesCarried.Statement (.crcUpdate c bytes) := ⟨rfl, by rintro _ ⟨⟩⟩

theorem Laws.EncodesCarried.crcFinal (c : Word) : Laws.EncodesCarried.Statement (.crcFinal c) :=
  ⟨rfl, by rintro _ ⟨⟩⟩

theorem Laws.EncodesCarried.hdrFeed (bytes : List Byte) : Laws.EncodesCarried.Statement (.hdrFeed bytes) :=
  ⟨rfl, by rintro _ ⟨⟩⟩

theorem Laws.EncodesCarried.hdrValidate : Laws.EncodesCarried.Statement .hdrValidate := ⟨rfl, by rintro _ ⟨⟩⟩

theorem Laws.EncodesCarried.lzInit (tail : Vector Byte 17) : Laws.EncodesCarried.Statement (.lzInit tail) :=
  ⟨rfl, by rintro _ ⟨⟩⟩

theorem Laws.EncodesCarried.emit (v : Byte) : Laws.EncodesCarried.Statement (.emit v) := ⟨rfl, by rintro _ ⟨⟩⟩

theorem Laws.EncodesCarried.lzFeedByte (b : Byte) : Laws.EncodesCarried.Statement (.lzFeedByte b) :=
  ⟨rfl, by rintro _ ⟨⟩⟩

theorem Laws.EncodesCarried.lzFeed (bytes : List Byte) : Laws.EncodesCarried.Statement (.lzFeed bytes) :=
  ⟨rfl, by rintro _ ⟨⟩⟩

end Sys2Proof
end

