-- ==== Sys2Proof/Tests/Slice0.lean ====
section
/-! SUPPORT. Tests and witnesses. The expected values of the tests are those of spec/95_test_vectors.md (the vector is named
beside each), or worked by hand from the encodings of spec/30_encoding.md. A witness shows a concrete state and
operands that meet the hypotheses of a statement. -/

namespace Sys2Proof.Tests

set_option Elab.async false

open Machine

/-! ## Helpers -/

/-- The state after an outcome. -/
def got (o : Host.Outcome State Fault Refusal) : State :=
  match o with
  | .next t => t
  | .fault _ => State.reset
  | .refused _ => State.reset

/-- Header H_A of the vectors' program A. -/
def headerA : Vector Byte 20 :=
  #v[0x14, 0x00, 0x00, 0x00, 0x5C, 0xA7, 0x86, 0x93, 0x33, 0x50, 0x53, 0x45, 0x41, 0x30, 0x01, 0x02, 0x03, 0x56, 0x04, 0x00]

/-- The payload of program A. -/
def payloadA : List Byte := [0xA0, 0xD0, 0x9F, 0xBC, 0x80, 0x00, 0x24, 0x20]

/-- A tail of the dictionary: seventeen zeros (the vectors' `tZ`). -/
def tailZ : Vector Byte 17 := Vector.replicate 17 0

/-- Reset, in state `p` with the magic of the vectors. -/
def phase (p : Phase) : State := { State.reset with st := p, magicCfg := 0x45535033#32 }

/-- Program A just after START (step 2). -/
def inHeader : State :=
  { phase .header with
    ctx := { State.reset.ctx with
      declaredLen := 28, crc := 0xFFFFFFFF#32, dict := seededDict tailZ, wcur := 2031#11 } }

/-- Program A just after its header (step 4). -/
def inFile : State :=
  { phase .file with
    ctx := { State.reset.ctx with
      declaredLen := 28, received := 20, crc := 0xBB25A44F#32, hdr := headerA, hdrFill := 20
      dict := seededDict tailZ, wcur := 2031#11 } }

/-- Program A at its end (step 7), as far as VERIFY and PROGRESS read it. -/
def inCompleted : State :=
  { phase .completed with
    ctx := { State.reset.ctx with
      declaredLen := 28, received := 28, written := 9, crc := 0x6C7958A3#32, hdr := headerA, hdrFill := 20 } }

/-- An error state with its stored code. -/
def inError : State := { phase .error with err := .hdrLength }

/-- The other error state. -/
def inMismatch : State := { phase .magicMismatch with err := .hdrMagic }

/-- An input waiting on the port. -/
def withPort (e : PortEvent) (s : State) : State := { s with port := [e] }

/-! ## Well-formedness -/

theorem test_wf_magic_without_word : Transaction.wellFormed ⟨0b001#3, .none⟩ = false := by decide

theorem test_wf_start_with_chunk : Transaction.wellFormed ⟨0b010#3, .chunk [1]⟩ = false := by decide

theorem test_wf_poll_with_word : Transaction.wellFormed ⟨0b011#3, .word 1⟩ = false := by decide

theorem test_wf_progress_with_word : Transaction.wellFormed ⟨0b100#3, .word 1⟩ = false := by decide

theorem test_wf_verify_with_chunk : Transaction.wellFormed ⟨0b101#3, .chunk []⟩ = false := by decide

theorem test_wf_release_with_word : Transaction.wellFormed ⟨0b110#3, .word 0⟩ = false := by decide

theorem test_wf_reserved_takes_anything :
    Transaction.wellFormed ⟨0b000#3, .word 7⟩ = true ∧ Transaction.wellFormed ⟨0b111#3, .chunk [1]⟩ = true := by decide

theorem test_wf_event : PortEvent.wellFormed (.command ⟨0b011#3, .none⟩) = false := by decide

/-- The decoder rejects by name, and the step stops on it. -/
theorem test_malformed_is_refused :
    step (withPort (.command ⟨0b011#3, .word 1⟩) inFile) = .refused (.operandMismatch 0b011#3) := rfl

/-! ## Decoding: words written out from R85, R86 and R89 -/

theorem test_decode_reserved0 : decode (.command ⟨0b000#3, .none⟩) = .ok .reserved0 := rfl

theorem test_decode_cfg_magic :
    decode (.command ⟨0b001#3, .word 0x45535033#32⟩) = .ok (.cfgMagic 0x45535033#32) := rfl

theorem test_decode_start : decode (.command ⟨0b010#3, .word 28#32⟩) = .ok (.start 28#32) := rfl

theorem test_decode_poll : decode (.command ⟨0b011#3, .chunk [0xC1]⟩) = .ok (.poll [0xC1]) := rfl

theorem test_decode_progress : decode (.command ⟨0b100#3, .none⟩) = .ok .progress := rfl

theorem test_decode_verify : decode (.command ⟨0b101#3, .none⟩) = .ok .verify := rfl

theorem test_decode_release : decode (.command ⟨0b110#3, .none⟩) = .ok .release := rfl

theorem test_decode_reserved7 : decode (.command ⟨0b111#3, .none⟩) = .ok .reserved7 := rfl

/-- `LIT 0x41` is `1 01000001`. -/
theorem test_decode_lit :
    decode (.token [true, false, true, false, false, false, false, false, true]) = .ok (.lit 0x41) := by decide

/-- `REF 2031, 2` is `0 11111101111 0010`. -/
theorem test_decode_ref :
    decode (.token [false, true, true, true, true, true, true, false, true, true, true, true, false, false, true, false])
      = .ok (.ref 2031#11 2#4) := by decide

theorem test_decode_incomplete : decode (.token (List.replicate 15 false)) = .error .incompleteToken := by decide

theorem test_decode_trailing : decode (.token (List.replicate 10 true)) = .error .trailingBits := by decide

theorem test_decode_mismatch : decode (.command ⟨0b101#3, .word 3⟩) = .error (.operandMismatch 0b101#3) := rfl

/-- The vectors' bytes of `REF 2040, 15` and of `LIT 0x41; PAD 7`. -/
theorem test_tokens_of_bytes :
    tokens (payloadBits [0x7F, 0x8F]) = [.ref 2040#11 15#4] ∧ tokens (payloadBits [0xA0, 0x80]) = [.lit 0x41] ∧
      rest (payloadBits [0xA0, 0x80]) = List.replicate 7 false := by decide

theorem test_table_words :
    decodeTableWord 8 0b011 = some (.poll []) ∧ decodeTableWord 8 0b010 = some (.start 0) ∧
      decodeTableWord 8 0b111 = some .reserved7 ∧ decodeTableWord 16 0b101000001 = some (.lit 0x41) ∧
      decodeTableWord 16 0x7EF2 = some (.ref 2031#11 2#4) := by decide

/-- A placed command is the next step's. -/
theorem test_fetch_command : (got (step (State.reset.withFetchWord 8 0b110))).results = [.done] := by decide

/-- A placed literal is executed by the next step. -/
theorem test_fetch_lit : (got (step (State.reset.withFetchWord 16 0b101000001))).sink = [0x41] := by decide

/-- A placed back-reference is executed by the next step: the reset dictionary holds zeros. -/
theorem test_fetch_ref : (got (step (State.reset.withFetchWord 16 0x7EF2))).sink = [0, 0, 0, 0] := by decide +kernel

/-! ## The error table -/

/-- R93's numbers are one admissible table. -/
def specTable : Config.ErrTable where
  code := errNumber
  negative := by intro e; cases e <;> decide
  distinct := by intro e e' h; cases e <;> cases e' <;> first | rfl | exact absurd h (by decide)

theorem test_numbers :
    Res.toInt specTable (.err .hdrMagic) = -9 ∧ Res.toInt specTable (.err .download) = -11 ∧
      Res.toInt specTable .inProgress = 0 ∧ Res.toInt specTable (.count 28) = 28 := by decide

/-! ## Commands -/

/-- FSM-6 -/
theorem test_reserved0 : (got (exec .reserved0 State.reset)).results = [.err .download] := by decide

/-- FSM-7, and the context stays. -/
theorem test_reserved7 : got (exec .reserved7 inFile) = { inFile with results := [.err .download] } := rfl

/-- FSM-8 -/
theorem test_cfg_magic : (got (exec (.cfgMagic 0x45535032#32) inError)).magicCfg = 0x45535032#32 := by decide

/-- FSM-11 -/
theorem test_cfg_magic_refused :
    (got (exec (.cfgMagic 1) inHeader)).magicCfg = 0x45535033#32 ∧
      (got (exec (.cfgMagic 1) inHeader)).results = [.err .download] := by decide

/-- FSM-9 -/
theorem test_start :
    let t := got (exec (.start 28) inError)
    t.st = .header ∧ t.results = [.count 28] ∧ t.ctx.crc = 0xFFFFFFFF#32 ∧ t.ctx.wcur = 2031#11 := by decide

/-- FSM-10 -/
theorem test_start_refused :
    (got (exec (.start 5) inHeader)).ctx.declaredLen = 28 ∧
      (got (exec (.start 5) inHeader)).results = [.err .download] := by decide

/-- Program A, step 5. -/
theorem test_poll_file :
    let t := got (exec (.poll [0xA0, 0xD0, 0x9F]) inFile)
    t.sink = [0x41, 0x42] ∧ t.ctx.crc = 0xC2597146#32 ∧ t.ctx.received = 23 ∧
      t.ctx.bitq.bits = [false, true, true, true, true, true] ∧ t.results = [.inProgress] := by decide +kernel

/-- Program B's header in one POLL with its payload: the magic check fails and no byte reaches the sink. -/
theorem test_poll_header_mismatch :
    let t := got (exec (.poll ((headerA.set 8 0x32).toList ++ payloadA)) inHeader)
    t.st = .magicMismatch ∧ t.sink = [] ∧ t.results = [.err .hdrMagic] := by decide +kernel

/-- Program A, step 11. -/
theorem test_progress : (got (exec .progress inCompleted)).results = [.count 9] := by decide

/-- After FSM-E. -/
theorem test_progress_error : (got (exec .progress inError)).results = [.err .hdrLength] := by decide

/-- Program A, step 8. -/
theorem test_verify : (got (exec .verify inCompleted)).results = [.done] := by decide

/-- Program D1: one bit of the stored checksum is wrong. -/
theorem test_verify_mismatch :
    (got (exec .verify { inCompleted with ctx := { inCompleted.ctx with hdr := headerA.set 4 0x5D } })).results
      = [.err .checksum] := by decide

/-- FSM-15 -/
theorem test_release :
    (got (exec .release inHeader)).st = .idle ∧ (got (exec .release inHeader)).results = [.done] := by decide

/-- FSM-5 -/
theorem test_release_idle : got (exec .release State.reset) = { State.reset with results := [.done] } := rfl

/-! ## Tokens and the decoder unit -/

/-- The write cursor wraps from 2047 to 0. -/
theorem test_lit_wraps :
    let s := { inFile with ctx := { inFile.ctx with wcur := 2047#11 } }
    (got (exec (.lit 0x41) s)).ctx.wcur = 0#11 ∧ dictRead 2047 (got (exec (.lit 0x41) s)) = 0x41 := by decide +kernel

/-- LZ-7 -/
theorem test_ref_seeded :
    (got (exec (.ref 0#11 0#4) inFile)).sink = [0x20, 0x20] ∧ (got (exec (.ref 0#11 0#4) inFile)).ctx.wcur = 2033#11 := by
  decide

/-- LZ-9, shortened: a REF at the last byte written reads its own writes. -/
theorem test_ref_overlap : (got (exec (.ref 2031#11 1#4) (emit 0x58 inFile))).sink = [0x58, 0x58, 0x58, 0x58] := by
  decide +kernel

theorem test_emit : (got (exec (.emit 0x30) inFile)).sink = [0x30] ∧ (got (exec (.emit 0x30) inFile)).ctx.written = 1 := by
  decide

/-- R150: indices 2030 and 2031. -/
theorem test_lz_init :
    let t := got (exec (.lzInit (tailZ.set 0 0xB0)) State.reset)
    dictRead 2030 t = 0x20 ∧ dictRead 2031 t = 0xB0 ∧ t.ctx.wcur = 2031#11 := by decide +kernel

/-- LZ-Q2 -/
theorem test_lz_feed_byte_lit :
    let t := got (exec (.lzFeedByte 0x00) { inFile with ctx := { inFile.ctx with bitq := .ofBits (List.replicate 8 true) } })
    t.sink = [0xFE] ∧ t.ctx.bitq.bits = List.replicate 7 false := by decide

/-- LZ-Q4 -/
theorem test_lz_feed_byte_ref :
    let t := got (exec (.lzFeedByte 0xFF) { inFile with ctx := { inFile.ctx with bitq := .ofBits (List.replicate 15 false) } })
    t.sink = [0x20, 0x20, 0x20] ∧ t.ctx.bitq.bits = List.replicate 7 true := by decide

/-- LZ-5 -/
theorem test_lz_feed :
    (got (exec (.lzFeed [0xA0, 0xD0]) inFile)).sink = [0x41] ∧
      (got (exec (.lzFeed [0xA0, 0xD0]) inFile)).ctx.bitq.bits = [true, false, true, false, false, false, false] := by
  decide

/-! ## Checksum unit -/

/-- CRC-1 -/
theorem test_crc_init : (got (exec .crcInit inFile)).unitResult = .word 0xFFFFFFFF#32 := by decide

/-- CRC-3 -/
theorem test_crc_step : (got (exec (.crcStep 0xFFFFFFFF#32 0x61) inFile)).unitResult = .word 0x174841BC#32 := by
  decide

/-- CRC-5 -/
theorem test_crc_update :
    (got (exec (.crcUpdate 0xFFFFFFFF#32 [0x31, 0x32, 0x33, 0x34, 0x35, 0x36, 0x37, 0x38, 0x39]) inFile)).unitResult
      = .word 0x340BC6D9#32 := by decide +kernel

/-- Program A, step 8. -/
theorem test_crc_final : (got (exec (.crcFinal 0x6C7958A3#32) inFile)).unitResult = .word 0x9386A75C#32 := by
  decide

/-- R116's entries 1 and 255. -/
theorem test_crc_table : crcTable 1 = 0x77073096#32 ∧ crcTable 255 = 0x2D02EF8D#32 := by decide

/-! ## Header unit -/

/-- HDR-4 -/
theorem test_hdr_feed :
    let t := got (exec (.hdrFeed (headerA.toList ++ [0xA0, 0xD0, 0x9F])) inHeader)
    t.unitResult = .consumed 20 ∧ t.ctx.hdr = headerA ∧ t.ctx.hdrFill = 20 := by decide

/-- HDR-6 -/
theorem test_hdr_feed_full : got (exec (.hdrFeed [1, 2, 3, 4, 5]) inFile) = { inFile with unitResult := .consumed 0 } :=
  rfl

/-- VAL-1 -/
theorem test_hdr_validate : (got (exec .hdrValidate inFile)).unitResult = .check .ok := by decide

/-- VAL-7: no wrap at 32 bits. -/
theorem test_hdr_validate_no_wrap :
    (got (exec .hdrValidate
      { inFile with ctx := { inFile.ctx with
        declaredLen := 4, hdr := (((headerA.set 0 0xFC).set 1 0xFF).set 2 0xFF).set 3 0xFF } })).unitResult
      = .check .lengthMismatch := by decide

/-- The accessors and the bit-fields on H_A. -/
theorem test_parse_header :
    parseHeader headerA = ⟨20, 0x9386A75C#32, 0x45535033#32, ⟨1, 1, 0, 0, 3, 1, 2, 3, 1110⟩⟩ := by decide

/-! ## Witnesses: states with the invariant -/

/-- A dictionary just seeded matches an empty output. -/
theorem dictMatches_seeded (tail : Vector Byte 17) (s : State) (hw : s.ctx.written = 0)
    (hd : s.ctx.dict = seededDict tail) : DictMatches tail s := by
  refine ⟨by omega, fun j hj => by omega, fun i _ => ?_⟩
  simp only [dictRead, hd]

theorem inv_inHeader : inHeader.Inv where
  header _ := by decide
  file h := absurd h (by decide)
  completed h := absurd h (by decide)
  queue := ⟨by decide, by decide⟩
  cursor _ := by decide
  expansion h := absurd h (by decide)
  dictionary _ := ⟨tailZ, dictMatches_seeded _ _ rfl rfl⟩
  magicError h := absurd h (by decide)
  otherError h := absurd h (by decide)

theorem inv_inFile : inFile.Inv where
  header h := absurd h (by decide)
  file _ := by decide
  completed h := absurd h (by decide)
  queue := ⟨by decide, by decide⟩
  cursor _ := by decide
  expansion _ := by decide
  dictionary _ := ⟨tailZ, dictMatches_seeded _ _ rfl rfl⟩
  magicError h := absurd h (by decide)
  otherError h := absurd h (by decide)

theorem inv_port (e : List PortEvent) {s : State} (h : s.Inv) : ({ s with port := e } : State).Inv := by
  obtain ⟨h1, h2, h3, h4, h5, h6, h7, h8, h9⟩ := h
  refine ⟨h1, h2, h3, h4, h5, h6, fun ha => ?_, h8, h9⟩
  obtain ⟨tail, hd⟩ := h7 ha
  exact ⟨tail, hd.logged, hd.window, hd.untouched⟩

/-- Seventeen bytes of output, standing in the last seventeen indices: it matches whatever the tail was. -/
def afterSeventeen (before : List Byte) : State :=
  { inFile with
    sink := before ++ (Vector.replicate 17 (0x41 : Byte)).toList
    ctx := { inFile.ctx with written := 17, wcur := 0, dict := seededDict (Vector.replicate 17 0x41) } }

theorem dictMatches_afterSeventeen (before : List Byte) (tail : Vector Byte 17) :
    DictMatches tail (afterSeventeen before) := by
  have hw : (afterSeventeen before).ctx.written = 17 := rfl
  have hs : (afterSeventeen before).sink = before ++ List.replicate 17 (0x41 : Byte) := rfl
  have hd : (afterSeventeen before).ctx.dict = seededDict (Vector.replicate 17 0x41) := rfl
  refine ⟨?_, ?_, ?_⟩
  · rw [hw, hs]
    simp
  · intro j hj _
    rw [hw] at hj ⊢
    rw [hs]
    have h1 : (2031 + j) % 2048 = 2031 + j := by omega
    simp only [dictRead, hd, seededDict_getElem, h1]
    rw [dif_neg (by omega), List.getElem?_append_right (by simp)]
    simp only [List.length_append, List.length_replicate, Vector.getElem_replicate]
    rw [show before.length + 17 - 17 + j - before.length = j by omega]
    interval_cases j <;> rfl
  · intro i hi
    rw [hw] at hi
    have hlt : i % 2048 < 2031 := by
      by_contra hge
      exact hi (i % 2048 - 2031) (by omega) (by omega)
    simp only [dictRead, hd, seededDict_getElem]
    rw [dif_pos hlt, dif_pos hlt]

/-! ## Witnesses: reset, step, dead state -/

theorem witness_StepKeepsInvariant :
    (withPort (.command ⟨0b011#3, .chunk payloadA⟩) inFile).Inv ∧
      ∃ t, step (withPort (.command ⟨0b011#3, .chunk payloadA⟩) inFile) = .next t :=
  ⟨inv_port _ inv_inFile, _, rfl⟩

/-- The two states differ in `err` and in a header byte that is not filled. -/
def twin (e : PortEvent) : State :=
  { withPort e inHeader with err := .urlParse, ctx := { inHeader.ctx with hdr := headerA } }

theorem agree_twin (e : PortEvent) : (withPort e inHeader).Agree (twin e) := by
  refine ⟨rfl, rfl, rfl, rfl, rfl, rfl, ?_, fun _ => ⟨rfl, rfl, rfl, rfl, rfl⟩, ?_, fun _ => ⟨rfl, rfl, rfl⟩⟩
  · rintro (h | h) <;> exact absurd h (by simp [withPort, inHeader, phase])
  · intro _ i hi
    exact absurd hi (by simp [withPort, inHeader, State.reset])

theorem witness_DeadStateIsNeverRead_next :
    (withPort (.command ⟨0b011#3, .chunk [0x14]⟩) inHeader).Inv ∧
      (withPort (.command ⟨0b011#3, .chunk [0x14]⟩) inHeader).Agree (twin (.command ⟨0b011#3, .chunk [0x14]⟩)) ∧
      ∃ t, step (withPort (.command ⟨0b011#3, .chunk [0x14]⟩) inHeader) = .next t :=
  ⟨inv_port _ inv_inHeader, agree_twin _, _, rfl⟩

theorem witness_DeadStateIsNeverRead_refused :
    (withPort (.command ⟨0b011#3, .none⟩) inHeader).Inv ∧
      (withPort (.command ⟨0b011#3, .none⟩) inHeader).Agree (twin (.command ⟨0b011#3, .none⟩)) ∧
      step (withPort (.command ⟨0b011#3, .none⟩) inHeader) = .refused (.operandMismatch 0b011#3) :=
  ⟨inv_port _ inv_inHeader, agree_twin _, rfl⟩

theorem witness_StepRunsDecodedCommand :
    (withPort (.command ⟨0b100#3, .none⟩) inFile).port = .command ⟨0b100#3, .none⟩ :: [] ∧
      decodeCommand ⟨0b100#3, .none⟩ = .ok .progress ∧ inFile.port = [] := ⟨rfl, rfl, rfl⟩

theorem witness_StepNeverStops :
    ∀ e, (withPort (.command ⟨0b011#3, .chunk []⟩) inFile).port.head? = some e → e.wellFormed = true := by
  rintro _ ⟨⟩
  rfl

theorem witness_ResetInputForgetsDownload : (withPort .reset inFile).port = .reset :: [] := rfl

/-! ## Witnesses: encodings -/

theorem witness_DecodeReadsBackEncode :
    (Instr.ref 2047#11 15#4).encodable = true ∧ (Instr.lit 0xFF).encodable = true ∧ (Instr.poll []).encodable = true :=
  ⟨rfl, rfl, rfl⟩

theorem witness_DecodedTokenSpellsItsBits :
    decodeToken (List.replicate 17 false) = some (.ref 0#11 0#4, [false]) ∧
      decodeToken (List.replicate 9 true) = some (.lit 0xFF, []) := by decide

theorem witness_ErrorCodesNegativeAndDistinct : errNumber .hdrTimeout = errNumber .hdrTimeout := rfl

theorem witness_ResultNumbersInjectivePerCommand :
    Res.toInt specTable (.err .hdrMagic) = Res.toInt specTable (.err .hdrMagic) ∧
      Res.toInt specTable (.count 28) = Res.toInt specTable (.count 28) := ⟨rfl, rfl⟩

/-! ## Witnesses: commands -/

theorem witness_phases :
    inHeader.st = .header ∧ inFile.st = .file ∧ inCompleted.st = .completed ∧ State.reset.st = .idle ∧
      inMismatch.st = .magicMismatch ∧ inError.st = .error := ⟨rfl, rfl, rfl, rfl, rfl, rfl⟩

theorem witness_CfgMagicWritesOnlyWhileInactive :
    (inFile.st = .header ∨ inFile.st = .file ∨ inFile.st = .completed) ∧
      (inError.st = .idle ∨ inError.st = .magicMismatch ∨ inError.st = .error) := by decide

theorem witness_StartOpensFreshContext :
    (inCompleted.st = .header ∨ inCompleted.st = .file ∨ inCompleted.st = .completed) ∧
      (inMismatch.st = .idle ∨ inMismatch.st = .magicMismatch ∨ inMismatch.st = .error) := by decide

theorem witness_ReleaseTearsDown : State.reset.st = .idle := rfl

theorem witness_ProgressCountsOrReplays :
    State.reset.st = .idle ∧ (inHeader.st = .header ∨ inHeader.st = .file ∨ inHeader.st = .completed) ∧
      (inMismatch.st = .magicMismatch ∨ inMismatch.st = .error) := by decide

theorem witness_VerifyComparesChecksum_accepts :
    inCompleted.st = .completed ∧
      ~~~inCompleted.ctx.crc
        = u32le inCompleted.ctx.hdr[4] inCompleted.ctx.hdr[5] inCompleted.ctx.hdr[6] inCompleted.ctx.hdr[7] := by
  decide

theorem witness_VerifyComparesChecksum_rejects :
    (setCrc 0 inCompleted).st = .completed ∧
      ~~~(setCrc 0 inCompleted).ctx.crc ≠ u32le (setCrc 0 inCompleted).ctx.hdr[4] (setCrc 0 inCompleted).ctx.hdr[5]
        (setCrc 0 inCompleted).ctx.hdr[6] (setCrc 0 inCompleted).ctx.hdr[7] := by decide

theorem witness_PollOutsideDownloadOnlyAnswers :
    inCompleted.st = .completed ∧ (inError.st = .magicMismatch ∨ inError.st = .error) ∧ State.reset.st = .idle := by
  decide

/-- 19 bytes into an empty buffer: one short of completion. -/
theorem witness_PollFillsIncompleteHeader :
    inHeader.st = .header ∧ inHeader.ctx.hdrFill.val + (headerA.toList.take 19).length < 20 := by decide

/-- Program A's header in one POLL: exactly 20 bytes. -/
theorem witness_PollCompletingHeader_exact :
    inHeader.st = .header ∧ inHeader.ctx.received = inHeader.ctx.hdrFill.val ∧
      20 ≤ inHeader.ctx.hdrFill.val + headerA.toList.length ∧
      (∀ i : Fin 20, headerA[i] = if i.val < inHeader.ctx.hdrFill.val then inHeader.ctx.hdr[i]
        else headerA.toList.getD (i.val - inHeader.ctx.hdrFill.val) 0) := by decide

/-- The five ends of that POLL: by the declared length and the configured magic. -/
theorem witness_PollCompletingHeader_ends :
    (hdrLength headerA).toNat + 8 ≠ 27 ∧ (hdrLength headerA).toNat + 8 = 28 ∧ hdrMagic headerA ≠ 0x45535032#32 ∧
      hdrMagic headerA = inHeader.magicCfg ∧ headerA.toList.length < 28 ∧
      (headerA.toList ++ payloadA).length = 28 ∧ 28 < (headerA.toList ++ payloadA ++ [0xC1]).length := by decide

/-- Program A's good header and, behind it in the same POLL from Header, nothing, its whole payload, and one byte more: below,
at and beyond the declared length. -/
theorem witness_PollCompletingHeaderRoutesRest :
    ∀ tail ∈ [[], payloadA, payloadA ++ [0xC1]],
      inHeader.st = .header ∧ inHeader.ctx.received = inHeader.ctx.hdrFill.val ∧
      20 ≤ inHeader.ctx.hdrFill.val + (headerA.toList ++ tail).length ∧
      (∀ i : Fin 20, headerA[i] = if i.val < inHeader.ctx.hdrFill.val then inHeader.ctx.hdr[i]
        else (headerA.toList ++ tail).getD (i.val - inHeader.ctx.hdrFill.val) 0) ∧
      (hdrLength headerA).toNat + 8 = inHeader.ctx.declaredLen.toNat ∧ hdrMagic headerA = inHeader.magicCfg := by
  decide

/-- The three ends of those POLLs (FSM-9 to program C1). -/
theorem witness_PollCompletingHeaderRoutesRest_ends :
    inHeader.ctx.hdrFill.val + headerA.toList.length < inHeader.ctx.declaredLen.toNat ∧
      inHeader.ctx.hdrFill.val + (headerA.toList ++ payloadA).length = inHeader.ctx.declaredLen.toNat ∧
      inHeader.ctx.declaredLen.toNat < inHeader.ctx.hdrFill.val + (headerA.toList ++ payloadA ++ [0xC1]).length := by decide

/-- In File with 20 of 28 bytes: a POLL below, at and beyond the declared length. -/
theorem witness_PollInFile :
    inFile.st = .file ∧ inFile.ctx.received + (payloadA.take 7).length < inFile.ctx.declaredLen.toNat ∧
      inFile.ctx.received + payloadA.length = inFile.ctx.declaredLen.toNat ∧
      inFile.ctx.declaredLen.toNat < inFile.ctx.received + (payloadA ++ [0xC1]).length := by decide

theorem witness_EmptyPollChangesNoState : inFile.Inv ∧ (inFile.st = .header ∨ inFile.st = .file) :=
  ⟨inv_inFile, .inr rfl⟩

/-- Within the declared length. -/
theorem witness_ChunkBoundaries_within :
    inHeader.Inv ∧ (inHeader.st = .header ∨ inHeader.st = .file) ∧
      [headerA.toList.take 7, headerA.toList.drop 7, payloadA] ≠ [] ∧
      inHeader.ctx.received + [headerA.toList.take 7, headerA.toList.drop 7, payloadA].flatten.length
        ≤ inHeader.ctx.declaredLen.toNat := ⟨inv_inHeader, .inl rfl, by simp, by decide⟩

/-- Beyond it, with a header whose length field is wrong. -/
theorem witness_ChunkBoundaries_header_fails :
    ∃ u, exec (.poll [headerA.toList.set 0 0x15, payloadA, payloadA].flatten) inHeader = .next u ∧
      u.results = inHeader.results ++ [.err .hdrLength] := ⟨_, rfl, by decide +kernel⟩

theorem witness_ImageAcceptedExactlyWhenChecksumMatches :
    (inError.st = .idle ∨ inError.st = .magicMismatch ∨ inError.st = .error) ∧
      (28#32).toNat = 20 + payloadA.length ∧ (hdrLength headerA).toNat + 8 = (28#32).toNat ∧
      hdrMagic headerA = inError.magicCfg := by decide

/-! ## Witnesses: rules over every instruction -/

theorem witness_OnlyCfgMagicWritesMagic : ∃ t, exec (.cfgMagic 1) inError = .next t ∧ t.magicCfg ≠ inError.magicCfg :=
  ⟨_, rfl, by decide⟩

theorem witness_PhaseMovesOnlyAsTabled :
    ∃ t, exec .release inError = .next t ∧ t.st ≠ inError.st := ⟨_, rfl, by decide⟩

theorem witness_ErrorStateLeftOnlyByReleaseOrStart :
    (inError.st = .magicMismatch ∨ inError.st = .error) ∧ ∃ t, exec (.poll [1]) inError = .next t := ⟨.inr rfl, _, rfl⟩

theorem witness_SinkIsAppendOnly : ∃ t, exec (.emit 1) inFile = .next t ∧ t.sink ≠ inFile.sink := ⟨_, rfl, by decide⟩

theorem witness_WrittenCountsSinkBytes :
    ∃ t, exec (.poll payloadA) inFile = .next t ∧ t.st = .completed := ⟨_, rfl, by decide⟩

/-! ## Witnesses: header unit and decoder unit -/

theorem witness_HdrValidateChecksInOrder :
    (hdrLength headerA).toNat + 8 ≠ 27 ∧ (hdrLength headerA).toNat + 8 = inFile.ctx.declaredLen.toNat ∧
      hdrMagic headerA ≠ 0x45535032#32 ∧ hdrMagic headerA = inFile.magicCfg := by decide

theorem witness_LzInitSeedsDictionary : 2030 < 2031 := by decide

theorem witness_RefCopiesByteByByte : 16 < (15#4).toNat + 2 ∧ 1 < (0#4).toNat + 2 := by decide

/-- An index a REF of two bytes at cursor 2031 does not store to. -/
theorem witness_RefCopiesByteByByte_frame :
    ∀ k, k < (0#4).toNat + 2 → 2033 % 2048 ≠ (inFile.ctx.wcur.toNat + k) % 2048 := by decide

theorem witness_RefBehindCursorRepeats : 1 ≤ 1 ∧ 1 ≤ 17 ∧ 1 ≤ 17 ∧ 17 ≤ 17 := by decide

/-- 9 bits, 16 bits and 15 bits after the byte joins. -/
theorem witness_LzFeedByteRunsCompletedToken :
    (9 ≤ ([true] ++ msb8 0).length ∧ ([true] ++ msb8 0).head? = some true) ∧
      (16 ≤ (List.replicate 8 false ++ msb8 0).length ∧ (List.replicate 8 false ++ msb8 0).head? = some false) ∧
      (¬(9 ≤ (List.replicate 7 false ++ msb8 0).length ∧ (List.replicate 7 false ++ msb8 0).head? = some true) ∧
        ¬(16 ≤ (List.replicate 7 false ++ msb8 0).length ∧ (List.replicate 7 false ++ msb8 0).head? = some false)) := by
  decide

/-- LZ-Q4 -/
theorem witness_PendingQueueStaysBelowToken :
    pendingOnly (setBitq (List.replicate 15 false) inFile).ctx.bitq.bits ∧
      ∃ t, exec (.lzFeedByte 0xFF) (setBitq (List.replicate 15 false) inFile) = .next t :=
  ⟨⟨by decide, by decide⟩, _, rfl⟩

theorem witness_StreamRunsTokensOfItsBits : pendingOnly (setBitq (List.replicate 8 true) inFile).ctx.bitq.bits :=
  ⟨by decide, by decide⟩

/-- Program A's payload: five tokens and `PAD 5`. -/
theorem witness_EncodedTokensDecode :
    inFile.ctx.bitq.bits = [] ∧ (List.replicate 5 false).length ≤ 7 ∧
      payloadBits payloadA = [Token.lit 0x41, .lit 0x42, .ref 2031#11 2#4, .ref 0#11 0#4, .lit 0x21].flatMap encodeToken
        ++ List.replicate 5 false := by decide

theorem witness_EveryOutputHasLiteralPayload : inFile.ctx.bitq.bits = [] := rfl

theorem witness_DictionaryHoldsOutput :
    DictMatches tailZ (afterSeventeen [1]) ∧
      (afterSeventeen [1]).ctx.wcur.toNat = (2031 + (afterSeventeen [1]).ctx.written) % 2048 ∧
      ∃ t, exec (.lzFeedByte 0xFF) (afterSeventeen [1]) = .next t :=
  ⟨dictMatches_afterSeventeen _ _, by decide, _, rfl⟩

/-- Two tails, two histories of the sink, the same output of seventeen bytes. -/
theorem witness_TailInvisibleAfterSeventeen :
    DictMatches tailZ (afterSeventeen []) ∧ DictMatches (tailZ.set 0 0xB0) (afterSeventeen [1, 2]) ∧
      17 ≤ (afterSeventeen []).ctx.written ∧ (afterSeventeen [1, 2]).ctx.written = (afterSeventeen []).ctx.written ∧
      (afterSeventeen [1, 2]).sink.drop ((afterSeventeen [1, 2]).sink.length - (afterSeventeen [1, 2]).ctx.written)
        = (afterSeventeen []).sink.drop ((afterSeventeen []).sink.length - (afterSeventeen []).ctx.written) :=
  ⟨dictMatches_afterSeventeen _ _, dictMatches_afterSeventeen _ _, by decide, rfl, by decide⟩

end Sys2Proof.Tests
end

section
/-! Token lengths (R87): when the decoder takes a token off, and how many bits it takes. -/

namespace Sys2Proof

/-- The pending bits are a complete token's exactly when they reach the length their first bit announces. -/
theorem not_pendingOnly_iff (q : List Bool) : ¬ Machine.pendingOnly q ↔
    (9 ≤ q.length ∧ q.head? = some true) ∨ (16 ≤ q.length ∧ q.head? = some false) := by
  unfold Machine.pendingOnly
  rcases q with _ | ⟨_ | _, q⟩
  case nil => simp
  case cons.false => simp
  case cons.true =>
    simp
    omega

theorem decodeToken_isSome_iff (q : List Bool) : (decodeToken q).isSome = true ↔
    (9 ≤ q.length ∧ q.head? = some true) ∨ (16 ≤ q.length ∧ q.head? = some false) := by
  rw [← not_pendingOnly_iff, ← decodeToken_none_iff, Option.isSome_iff_ne_none]

/-- The first bit alone fixes how many bits a token takes. -/
theorem decodeToken_length {q r : List Bool} {tok : Token} (h : decodeToken q = some (tok, r)) :
    q.length = (if q.head? = some true then 9 else 16) + r.length := by
  obtain ⟨q', rfl, hlen, -, rfl⟩ | ⟨q', rfl, hlen, -, rfl⟩ := decodeToken_some h
  · simp
    omega
  · simp
    omega

/-- Settles O10: the decoder stops exactly on an incomplete token, and each of its two formats has one length. -/
theorem tokenCompleteExactlyAtItsLength : Obligations.TokenCompleteExactlyAtItsLength :=
  fun q => ⟨decodeToken_isSome_iff q, fun _ _ => decodeToken_length⟩

end Sys2Proof
end

section
/-! The CRC unit (40_crc.md): what its micro-operations answer. `yieldUnit` is their whole effect, so nothing but the
returned value changes. -/

namespace Sys2Proof.Machine

theorem exec_crcInit (s : State) : exec .crcInit s = .next (yieldUnit (.word crcSeed) s) := rfl

theorem exec_crcUpdate (c : Word) (bytes : List Byte) (s : State) :
    exec (.crcUpdate c bytes) s = .next (yieldUnit (.word (crcUpdate c bytes)) s) := rfl

theorem exec_crcFinal (c : Word) (s : State) : exec (.crcFinal c) s = .next (yieldUnit (.word (crcFinal c)) s) := rfl

@[simp] theorem crcUpdate_nil (c : Word) : crcUpdate c [] = c := rfl

theorem crcUpdate_cons (c : Word) (b : Byte) (bytes : List Byte) :
    crcUpdate c (b :: bytes) = crcUpdate (crcStep c b) bytes := rfl

/-- The second equality of R114: complementing a word is XOR with all ones. -/
theorem crcFinal_eq_xor (c : Word) : crcFinal c = c ^^^ 0xFFFFFFFF#32 :=
  (BitVec.xor_allOnes (x := c)).symm

/-- Settles O35: `exec` yields the seed and the complement, and R114 writes the complement as an XOR. -/
theorem crcInitAndFinalAnswer : Obligations.CrcInitAndFinalAnswer := by
  intro s
  refine ⟨exec_crcInit s, fun c => ?_⟩
  rw [exec_crcFinal, crcFinal_eq_xor]
  rfl

/-- Settles O37: the two equations of the fold, each read through `exec`. -/
theorem crcUpdateFoldsStep : Obligations.CrcUpdateFoldsStep := by
  intro c s
  constructor
  · rw [exec_crcUpdate, crcUpdate_nil]
    rfl
  · intro b bytes
    refine ⟨crcUpdate (crcStep c b) bytes, ?_, exec_crcUpdate _ bytes s⟩
    rw [exec_crcUpdate, crcUpdate_cons]
    rfl

end Sys2Proof.Machine
end

section
/-! The HDR unit (41_header.md): what `hdr_feed` leaves, as a next state with its frame. -/

namespace Sys2Proof.Machine

theorem exec_hdrFeed (bytes : List Byte) (s : State) :
    exec (.hdrFeed bytes) s = .next (yieldUnit (.consumed (hdrRoom s.ctx.hdrFill bytes)) (hdrFeed bytes s)) := rfl

/-- The frame of R130: only the header buffer and its fill level move. -/
theorem hdrFeed_frame (bytes : List Byte) (s : State) :
    hdrFeed bytes s
      = { s with ctx := { s.ctx with hdr := (hdrFeed bytes s).ctx.hdr, hdrFill := (hdrFeed bytes s).ctx.hdrFill } } := rfl

/-- Settles O41: the count is `hdrRoom`, the fill level grows by it, and `hdrFeed_getElem` reads every index. -/
theorem hdrFeedFillsUpward : Obligations.HdrFeedFillsUpward := by
  intro bytes s
  refine ⟨_, exec_hdrFeed bytes s, ⟨?count, ?fill, ?index⟩, ?frame⟩
  case count => exact yieldUnit_unitResult _ _
  case fill => exact hdrFeed_hdrFill_val bytes s
  case index => exact fun i => hdrFeed_getElem bytes s i.val i.isLt
  case frame => exact congrArg (yieldUnit _) (hdrFeed_frame bytes s)

end Sys2Proof.Machine
end

section
/-! The LZ unit (42_lzss.md): `emit` and LIT as a next state with its frame, and the two ways a payload byte can go:
either its token completes and runs on the shortened queue, or the queue grows. -/

namespace Sys2Proof

/-- Nine bits after a leading 1 are a LIT, cut by the bit numbers of R152. -/
theorem decodeToken_of_head_true {q : List Bool} (hlen : 9 ≤ q.length) (hq : q.head? = some true) :
    decodeToken q = some (.lit (BitVec.ofNat 8 (val ((q.drop 1).take 8))), q.drop 9) := by
  obtain ⟨q, rfl⟩ := List.head?_eq_some_iff.mp hq
  exact decodeToken_true q (Nat.le_of_succ_le_succ hlen)

/-- Sixteen bits after a leading 0 are a REF, cut by the bit numbers of R152. -/
theorem decodeToken_of_head_false {q : List Bool} (hlen : 16 ≤ q.length) (hq : q.head? = some false) :
    decodeToken q = some
      (.ref (BitVec.ofNat 11 (val ((q.drop 1).take 11))) (BitVec.ofNat 4 (val ((q.drop 12).take 4))), q.drop 16) := by
  obtain ⟨q, rfl⟩ := List.head?_eq_some_iff.mp hq
  exact decodeToken_false q (Nat.le_of_succ_le_succ hlen)

end Sys2Proof

namespace Sys2Proof.Machine

theorem exec_emit (v : Byte) (s : State) : exec (.emit v) s = .next (emit v s) := rfl

theorem exec_lit (d : Byte) (s : State) : exec (.lit d) s = .next (runToken (.lit d) s) := rfl

theorem exec_ref (off : BitVec 11) (len : BitVec 4) (s : State) :
    exec (.ref off len) s = .next (runToken (.ref off len) s) := rfl

theorem exec_lzFeedByte (b : Byte) (s : State) : exec (.lzFeedByte b) s = .next (lzFeedByte b s) := rfl

theorem exec_lzFeed (bytes : List Byte) (s : State) : exec (.lzFeed bytes) s = .next (lzFeed bytes s) := rfl

/-- LIT is `emit` of its byte (R153). -/
theorem runToken_lit (d : Byte) (s : State) : runToken (.lit d) s = emit d s := rfl

/-- The frame of R151: one byte is emitted and the pending bits stay. -/
theorem emit_frame (v : Byte) (s : State) :
    emit v s = { s with sink := s.sink ++ [v], ctx :=
      { s.ctx with dict := (emit v s).ctx.dict, wcur := s.ctx.wcur + 1, written := s.ctx.written + 1 } } := rfl

/-- A queue with room for `q` takes all of it, and no other element changes. -/
theorem setBitq_keeps_bits {q : List Bool} (h : q.length ≤ 15) (s : State) :
    ∃ left : BitQueue, left.bits = q ∧ setBitq q s = { s with ctx := { s.ctx with bitq := left } } :=
  ⟨.ofBits q, ofBits_bits h, rfl⟩

/-- The token a payload byte completes runs on the state whose queue holds all the bits behind it (R152). -/
theorem lzFeedByte_of_complete {b : Byte} {s : State} {tok : Token} {r : List Bool}
    (h : decodeToken (s.ctx.bitq.bits ++ msb8 b) = some (tok, r)) :
    ∃ left : BitQueue, left.bits = r ∧ runToken tok { s with ctx := { s.ctx with bitq := left } } = lzFeedByte b s := by
  have hroom : r.length ≤ 15 := Nat.le_succ_of_le ((queue_room s.ctx.bitq b).2 tok r h)
  obtain ⟨left, hleft, hset⟩ := setBitq_keeps_bits hroom s
  refine ⟨left, hleft, ?_⟩
  rw [← hset, lzFeedByte, h]

/-- A payload byte that completes no token only joins the queue (R152). -/
theorem lzFeedByte_of_incomplete {b : Byte} {s : State} (h : decodeToken (s.ctx.bitq.bits ++ msb8 b) = none) :
    ∃ left : BitQueue, left.bits = s.ctx.bitq.bits ++ msb8 b ∧
      lzFeedByte b s = { s with ctx := { s.ctx with bitq := left } } := by
  obtain ⟨left, hleft, hset⟩ := setBitq_keeps_bits ((queue_room s.ctx.bitq b).1 h) s
  refine ⟨left, hleft, ?_⟩
  rw [← hset, lzFeedByte, h]

/-- Settles O47: LIT and `emit` reach the same state; `dictRead_emit` reads every index of it, `emit_frame` the rest. -/
theorem emitAndLitStoreAndForward : Obligations.EmitAndLitStoreAndForward := by
  intro v s
  refine ⟨emit v s, exec_emit v s, ?lit, ?index, ?frame⟩
  case lit => rw [exec_lit, runToken_lit]
  case index => exact fun i => dictRead_emit v i s
  case frame => exact emit_frame v s

/-- Settles O51: the decoder's answer on the pending bits decides which of the three cases holds; whichever it is, the
queue has room for the bits that stay. -/
theorem lzFeedByteRunsCompletedToken : Obligations.LzFeedByteRunsCompletedToken := by
  intro b s
  refine ⟨_, exec_lzFeedByte b s, ?lit, ?ref, ?pending⟩
  case lit =>
    intro hlen hq
    obtain ⟨left, hleft, hrun⟩ := lzFeedByte_of_complete (decodeToken_of_head_true hlen hq)
    exact ⟨left, hleft, by rw [exec_lit, hrun]⟩
  case ref =>
    intro hlen hq
    obtain ⟨left, hleft, hrun⟩ := lzFeedByte_of_complete (decodeToken_of_head_false hlen hq)
    exact ⟨left, hleft, by rw [exec_ref, hrun]⟩
  case pending =>
    intro hlit href
    have hpending : pendingOnly (s.ctx.bitq.bits ++ msb8 b) :=
      not_not.mp fun h => ((not_pendingOnly_iff _).mp h).elim hlit href
    exact lzFeedByte_of_incomplete ((decodeToken_none_iff _).mpr hpending)

/-- Settles O52: the two equations of the fold, each read through `exec`. -/
theorem lzFeedRunsBytesInOrder : Obligations.LzFeedRunsBytesInOrder := by
  intro s
  constructor
  · rw [exec_lzFeed, lzFeed_nil]
  · intro b bytes
    refine ⟨lzFeedByte b s, lzFeed bytes (lzFeedByte b s), exec_lzFeedByte b s, exec_lzFeed bytes _, ?_⟩
    rw [exec_lzFeed, lzFeed_cons]

end Sys2Proof.Machine
end

section
/-! The FSM commands (43_fsm_commands.md): CFG_MAGIC, RELEASE, PROGRESS and VERIFY in every state, and the POLLs that
move nothing: those outside a download, and the empty one. -/

namespace Sys2Proof.Machine

/-! ## The commands through `exec` -/

theorem exec_reserved0 (s : State) : exec .reserved0 s = .next (refuse .download s) := rfl

theorem exec_reserved7 (s : State) : exec .reserved7 s = .next (refuse .download s) := rfl

theorem exec_cfgMagic (m : Word) (s : State) : exec (.cfgMagic m) s = execCfgMagic m s := rfl

theorem exec_release (s : State) : exec .release s = .next (answer .done (teardown s)) := rfl

theorem exec_poll (chunk : List Byte) (s : State) : exec (.poll chunk) s = .next (poll chunk s) := rfl

theorem exec_progress (s : State) : exec .progress s = .next (answer (progressResult s) s) := rfl

theorem exec_verify (s : State) : exec .verify s = .next (answer (verifyResult s) s) := rfl

/-- The frame of a result (R92): the host's record grows by it, and no element of the core changes. -/
theorem answer_frame (r : Res) (s : State) : answer r s = { s with results := s.results ++ [r] } := rfl

/-- The frame of a refusal (R220). -/
theorem refuse_frame (code : ErrCode) (s : State) :
    refuse code s = { s with results := s.results ++ [.err code] } := rfl

/-! ## The states by their kind -/

theorem active_iff {p : Phase} : p.active = true ↔ p = .header ∨ p = .file ∨ p = .completed := by
  cases p <;> decide

theorem inactive_iff {p : Phase} : p.active = false ↔ p = .idle ∨ p = .magicMismatch ∨ p = .error := by
  cases p <;> decide

/-! ## Results of PROGRESS and VERIFY -/

theorem progressResult_idle {s : State} (h : s.st = .idle) : progressResult s = .err .download := by
  simp [progressResult, h]

theorem progressResult_live {s : State} (h : s.st = .header ∨ s.st = .file ∨ s.st = .completed) :
    progressResult s = .count s.ctx.written := by
  rcases h with h | h | h <;> simp [progressResult, h]

theorem progressResult_error {s : State} (h : s.st = .magicMismatch ∨ s.st = .error) :
    progressResult s = .err s.err := by
  rcases h with h | h <;> simp [progressResult, h]

theorem verifyResult_incomplete {s : State} (h : s.st = .idle ∨ s.st = .header ∨ s.st = .file) :
    verifyResult s = .err .download := by
  rcases h with h | h | h <;> simp [verifyResult, h]

theorem verifyResult_error {s : State} (h : s.st = .magicMismatch ∨ s.st = .error) :
    verifyResult s = .err s.err := by
  rcases h with h | h <;> simp [verifyResult, h]

/-- The acceptance gate of R119. -/
theorem verifyResult_completed {s : State} (h : s.st = .completed) :
    verifyResult s = if crcFinal s.ctx.crc = hdrCrc32 s.ctx.hdr then .done else .err .checksum := by
  simp [verifyResult, h]

/-! ## RELEASE -/

theorem teardown_of_idle {s : State} (h : s.st = .idle) : teardown s = s := by
  obtain ⟨heq, -⟩ | ⟨-, hne⟩ := teardown_cases s
  · exact heq
  · exact absurd h hne

/-- The frame of R193: the state becomes Idle, and beside it only what is dead there can move. -/
theorem teardown_frame (s : State) :
    teardown s = { s with
      st := .idle, err := (teardown s).err, ctx := (teardown s).ctx, draws := (teardown s).draws } := by
  obtain ⟨heq, hidle⟩ | ⟨heq, -⟩ := teardown_cases s
  · rw [heq, ← hidle]
  · rw [heq]
    rfl

@[simp] theorem teardown_st (s : State) : (teardown s).st = .idle := by rw [teardown_frame]

@[simp] theorem teardown_magicCfg (s : State) : (teardown s).magicCfg = s.magicCfg := by rw [teardown_frame]

@[simp] theorem teardown_port (s : State) : (teardown s).port = s.port := by rw [teardown_frame]

@[simp] theorem teardown_sink (s : State) : (teardown s).sink = s.sink := by rw [teardown_frame]

@[simp] theorem teardown_results (s : State) : (teardown s).results = s.results := by rw [teardown_frame]

@[simp] theorem teardown_unitResult (s : State) : (teardown s).unitResult = s.unitResult := by rw [teardown_frame]

/-! ## The empty POLL -/

theorem hdrFeed_nil (s : State) : hdrFeed [] s = s := by
  simp [hdrFeed, hdrRoom, hdrCopy]

theorem countReceived_zero (s : State) : countReceived 0 s = s := rfl

theorem routed_nil (s : State) : routed [] s = s := rfl

/-- An incomplete header that receives nothing stays incomplete (R195). -/
theorem pollHeader_nil {s : State} (h : s.ctx.hdrFill.val < 20) : pollHeader [] s = answer .inProgress s := by
  obtain ⟨-, heq⟩ | ⟨hfull, -⟩ := pollHeader_cases [] s
  · rw [heq, hdrFeed_nil, List.length_nil, countReceived_zero]
  · exact absurd hfull (Nat.not_le.mpr h)

/-- A payload that is not exhausted and receives nothing is still not exhausted (R195). -/
theorem pollFile_nil {s : State} (h : s.ctx.received < s.ctx.declaredLen.toNat) :
    pollFile [] s = answer .inProgress s := by
  rw [pollFile_eq, routed_nil]
  obtain ⟨heq, -⟩ | ⟨hover, -⟩ | ⟨-, hrun⟩ := completionCheck_cases s
  · exact absurd heq h.ne
  · exact absurd hover h.asymm
  · exact hrun

/-- The result of an empty POLL (R195), by the state. -/
def emptyPollResult (s : State) : Res :=
  match s.st with
  | .idle => .err .download
  | .header | .file => .inProgress
  | .completed => .done
  | .magicMismatch | .error => .err s.err

/-- From the invariants an empty POLL is its result and nothing else: R35 keeps Header short of a whole header, and File
short of the declared length. -/
theorem poll_nil {s : State} (hinv : s.Inv) : poll [] s = answer (emptyPollResult s) s := by
  cases hst : s.st with
  | idle => simp [emptyPollResult, hst, poll_idle hst, refuse]
  | header =>
    obtain ⟨hfill, -⟩ := hinv.header hst
    simp [emptyPollResult, hst, poll_header hst, pollHeader_nil hfill]
  | file =>
    obtain ⟨-, -, hreceived, -⟩ := hinv.file hst
    simp [emptyPollResult, hst, poll_file hst, pollFile_nil hreceived]
  | completed => simp [emptyPollResult, hst, poll_completed hst]
  | magicMismatch => simp [emptyPollResult, hst, poll_error (.inl hst)]
  | error => simp [emptyPollResult, hst, poll_error (.inr hst)]

/-! ## The statements -/

/-- Settles O14: both opcodes are the refusal, whose frame is `refuse_frame`. -/
theorem reservedOpcodesAreRefused : Obligations.ReservedOpcodesAreRefused := by
  intro s
  rw [exec_reserved0, exec_reserved7, refuse_frame]
  exact ⟨rfl, rfl⟩

/-- Settles O15: a context is live in exactly the three states of the first clause. -/
theorem cfgMagicWritesOnlyWhileInactive : Obligations.CfgMagicWritesOnlyWhileInactive := by
  intro m s
  rw [exec_cfgMagic]
  obtain ⟨hlive, hrun⟩ | ⟨hdead, hrun⟩ := execCfgMagic_cases m s
  · refine ⟨fun _ => hrun, fun hst => ?_⟩
    simp [inactive_iff.mpr hst] at hlive
  · refine ⟨fun hst => ?_, fun _ => hrun⟩
    simp [active_iff.mpr hst] at hdead

/-- Settles O17: the survivors are those of the teardown's frame; in Idle the teardown is the identity. -/
theorem releaseTearsDown : Obligations.ReleaseTearsDown := by
  intro s
  refine ⟨_, exec_release s, teardown_st s, ?results, teardown_magicCfg s, teardown_sink s, teardown_port s,
    teardown_unitResult s, ?idle⟩
  case results => rw [answer_results, teardown_results]
  case idle =>
    intro hidle
    rw [teardown_of_idle hidle, answer_frame]

/-- Settles O18: PROGRESS appends `progressResult`, which each kind of state fixes. -/
theorem progressCountsOrReplays : Obligations.ProgressCountsOrReplays :=
  fun s => ⟨progressResult s, exec_progress s, progressResult_idle, progressResult_live, progressResult_error⟩

/-- Settles O19: VERIFY appends `verifyResult`; in Completed the gate of R119 decides it. -/
theorem verifyComparesChecksum : Obligations.VerifyComparesChecksum := by
  intro s
  refine ⟨verifyResult s, exec_verify s, verifyResult_incomplete, verifyResult_error, ?accepts, ?rejects⟩
  case accepts =>
    intro hst heq
    rw [verifyResult_completed hst]
    exact if_pos heq
  case rejects =>
    intro hst hne
    rw [verifyResult_completed hst]
    exact if_neg hne

/-- Settles O20: `poll` in each of these states is one result, whatever the chunk. -/
theorem pollOutsideDownloadOnlyAnswers : Obligations.PollOutsideDownloadOnlyAnswers := by
  intro chunk s
  rw [exec_poll, exec_progress, exec_verify]
  refine ⟨fun hst => ?completed, fun hst => ?error, fun hst => ⟨?idlePoll, ?idleProgress, ?idleVerify⟩⟩
  case completed => rw [poll_completed hst, answer_frame]
  case error => rw [poll_error hst, answer_frame]
  case idlePoll => rw [poll_idle hst, refuse_frame]
  case idleProgress => rw [progressResult_idle hst, answer_frame]
  case idleVerify => rw [verifyResult_incomplete (.inl hst), answer_frame]

/-- Settles O26: an empty POLL appends `emptyPollResult`, which each kind of state fixes. -/
theorem emptyPollChangesNoState : Obligations.EmptyPollChangesNoState := by
  intro s hinv
  refine ⟨emptyPollResult s, ?frame, ?live, ?completed, ?error, ?idle⟩
  case frame => rw [exec_poll, poll_nil hinv, answer_frame]
  case live => rintro (h | h) <;> simp [emptyPollResult, h]
  case completed => intro h; simp [emptyPollResult, h]
  case error => rintro (h | h) <;> simp [emptyPollResult, h]
  case idle => intro h; simp [emptyPollResult, h]

end Sys2Proof.Machine
end

section
/-! Error states (60_exceptions.md): what entering one records, and that only RELEASE and START move that record. -/

namespace Sys2Proof.Machine

/-! ## The remaining instructions through `exec` -/

theorem exec_start (n : Word) (s : State) : exec (.start n) s = execStart n s := rfl

theorem exec_crcStep (c : Word) (b : Byte) (s : State) :
    exec (.crcStep c b) s = .next (yieldUnit (.word (crcStep c b)) s) := rfl

theorem exec_hdrValidate (s : State) : exec .hdrValidate s = .next (yieldUnit (.check (hdrValidate s)) s) := rfl

theorem exec_lzInit (tail : Vector Byte 17) (s : State) : exec (.lzInit tail) s = .next (lzInit tail s) := rfl

/-! ## Outside a live context -/

/-- CFG_MAGIC is performed in Idle and in the error states (R181). -/
theorem exec_cfgMagic_of_inactive {s : State} (h : s.st.active = false) (m : Word) :
    exec (.cfgMagic m) s = .next (answer .done { s with magicCfg := m }) := by
  rw [exec_cfgMagic]
  obtain ⟨hlive, -⟩ | ⟨-, hrun⟩ := execCfgMagic_cases m s
  · simp [h] at hlive
  · exact hrun

/-- START is performed in Idle and in the error states (R182). -/
theorem exec_start_of_inactive {s : State} (h : s.st.active = false) (n : Word) :
    exec (.start n) s = .next (answer (.count n.toNat) (lzInit (dictTailInit s.draws) (openContext n s))) := by
  rw [exec_start]
  obtain ⟨hlive, -⟩ | ⟨-, hrun⟩ := execStart_cases n s
  · simp [h] at hlive
  · exact hrun

/-- The context START creates (R182): nothing of the one before is left in it. -/
theorem lzInit_openContext_ctx (tail : Vector Byte 17) (n : Word) (s : State) :
    (lzInit tail (openContext n s)).ctx =
      { declaredLen := n, received := 0, written := 0, crc := crcSeed, hdr := unfilledHdr s.draws, hdrFill := 0,
        dict := seededDict tail, wcur := initialCursor, bitq := .ofBits [] } := rfl

/-! ## The record of a failure -/

/-- The decoder never moves the phase. -/
theorem Emitted.st_eq {out : List Byte} {s t : State} (h : Emitted out s t) : t.st = s.st := by rw [h]

/-- The decoder never moves the stored error. -/
theorem Emitted.err_eq {out : List Byte} {s t : State} (h : Emitted out s t) : t.err = s.err := by rw [h]

/-- R227: in an error state the host commands other than RELEASE and START only answer or write `magic_cfg`, and the
units reach neither `st` nor `err` in any state. -/
theorem exec_keeps_failure {i : Instr} {s : State} (hst : s.st = .magicMismatch ∨ s.st = .error)
    (hrelease : i ≠ .release) (hstart : ∀ n, i ≠ .start n) :
    ∃ t, exec i s = .next t ∧ t.st = s.st ∧ t.err = s.err := by
  cases i with
  | release => exact absurd rfl hrelease
  | start n => exact absurd rfl (hstart n)
  | reserved0 => exact ⟨_, exec_reserved0 s, refuse_st .download s, refuse_err .download s⟩
  | reserved7 => exact ⟨_, exec_reserved7 s, refuse_st .download s, refuse_err .download s⟩
  | cfgMagic m => exact ⟨_, exec_cfgMagic_of_inactive (inactive_iff.mpr (.inr hst)) m, answer_st _ _, answer_err _ _⟩
  | poll chunk =>
    refine ⟨poll chunk s, exec_poll chunk s, ?_⟩
    rw [poll_error hst]
    exact ⟨answer_st _ s, answer_err _ s⟩
  | progress => exact ⟨_, exec_progress s, answer_st _ s, answer_err _ s⟩
  | verify => exact ⟨_, exec_verify s, answer_st _ s, answer_err _ s⟩
  | lit d => exact ⟨_, exec_lit d s, emit_st d s, emit_err d s⟩
  | ref off len =>
    obtain ⟨out, hout, -⟩ := emitted_runToken (.ref off len) s
    exact ⟨_, exec_ref off len s, hout.st_eq, hout.err_eq⟩
  | crcInit => exact ⟨_, exec_crcInit s, yieldUnit_st _ s, yieldUnit_err _ s⟩
  | crcStep c b => exact ⟨_, exec_crcStep c b s, yieldUnit_st _ s, yieldUnit_err _ s⟩
  | crcUpdate c bytes => exact ⟨_, exec_crcUpdate c bytes s, yieldUnit_st _ s, yieldUnit_err _ s⟩
  | crcFinal c => exact ⟨_, exec_crcFinal c s, yieldUnit_st _ s, yieldUnit_err _ s⟩
  | hdrFeed bytes => exact ⟨_, exec_hdrFeed bytes s, hdrFeed_st bytes s, hdrFeed_err bytes s⟩
  | hdrValidate => exact ⟨_, exec_hdrValidate s, yieldUnit_st _ s, yieldUnit_err _ s⟩
  | lzInit tail => exact ⟨_, exec_lzInit tail s, lzInit_st tail s, lzInit_err tail s⟩
  | emit v => exact ⟨_, exec_emit v s, emit_st v s, emit_err v s⟩
  | lzFeedByte b =>
    obtain ⟨out, hout, -⟩ := emitted_lzFeedByte b s
    exact ⟨_, exec_lzFeedByte b s, hout.st_eq, hout.err_eq⟩
  | lzFeed bytes =>
    obtain ⟨out, hout, -⟩ := emitted_lzFeed bytes s
    exact ⟨_, exec_lzFeed bytes s, hout.st_eq, hout.err_eq⟩

/-! ## The statements -/

/-- Settles O27: `errorPhase` is the choice of the state, and the other elements are those of the named update. -/
theorem raiseEntersErrorState : Obligations.RaiseEntersErrorState := by
  intro code s
  refine ⟨?phase, raise_err code s, raise_results code s, raise_magicCfg code s, raise_sink code s, raise_port code s⟩
  case phase => rw [raise_st, errorPhase]

/-- Settles O32: RELEASE and START are the two ways out; `exec_keeps_failure` is every other instruction. -/
theorem errorStateLeftOnlyByReleaseOrStart : Obligations.ErrorStateLeftOnlyByReleaseOrStart := by
  intro i s t hst hexec
  by_cases hrelease : i = .release
  · subst hrelease
    obtain rfl := Host.Outcome.next.inj ((exec_release s).symm.trans hexec)
    exact .inr (.inl ⟨rfl, teardown_st s⟩)
  by_cases hstart : ∃ n, i = .start n
  · obtain ⟨n, rfl⟩ := hstart
    have hrun := exec_start_of_inactive (inactive_iff.mpr (.inr hst)) n
    obtain rfl := Host.Outcome.next.inj (hrun.symm.trans hexec)
    exact .inr (.inr ⟨n, dictTailInit s.draws, rfl, openContext_st n s, lzInit_openContext_ctx _ n s⟩)
  obtain ⟨u, hrun, hkept⟩ := exec_keeps_failure hst hrelease (not_exists.mp hstart)
  obtain rfl := Host.Outcome.next.inj (hrun.symm.trans hexec)
  exact .inl hkept

end Sys2Proof.Machine
end

section
/-! Reset (70_reset_and_hazards.md): the two elements R250 gives a value at power-on. Those of the reset input are
`resetInput_st` and `resetInput_magicCfg`. -/

namespace Sys2Proof.Machine

@[simp] theorem State.reset_st : State.reset.st = .idle := rfl
@[simp] theorem State.reset_magicCfg : State.reset.magicCfg = Config.magicDefault := rfl

/-- Settles O1: at power-on by the two fields of `State.reset`, after the reset input by those of `resetInput`. -/
theorem resetIsIdleWithDefaultMagic : Obligations.ResetIsIdleWithDefaultMagic :=
  ⟨State.reset_st, State.reset_magicCfg, fun s => ⟨resetInput_st s, resetInput_magicCfg s⟩⟩

end Sys2Proof.Machine
end

section
/-! Encodings (30_encoding.md): decoder and encoder of tokens are inverse to each other, a token list is cut back out of
its bits, and the numbers of the error codes and of the results. -/

namespace Sys2Proof

/-! ## Tokens (R85 to R88) -/

/-- The value field of a bit sequence that `bitsMsb` wrote. -/
theorem ofNat_val_bitsMsb {n : Nat} (v : BitVec n) : BitVec.ofNat n (val (bitsMsb v)) = v := by
  rw [val_bitsMsb, BitVec.ofNat_toNat, BitVec.setWidth_eq]

/-- The decoder takes exactly the encoding of a token off whatever follows it. -/
theorem decodeToken_encodeToken_append (tok : Token) (r : List Bool) :
    decodeToken (encodeToken tok ++ r) = some (tok, r) := by
  cases tok with
  | lit d =>
    rw [encodeToken, List.cons_append, decodeToken_true _ (by simp), List.take_left' (bitsMsb_length d),
      List.drop_left' (bitsMsb_length d), ofNat_val_bitsMsb]
  | ref off len =>
    have hoff := bitsMsb_length off
    have hlen := bitsMsb_length len
    have hfields : (bitsMsb off ++ bitsMsb len).length = 15 := by simp
    have hafter : (bitsMsb off ++ bitsMsb len ++ r).drop 11 = bitsMsb len ++ r := by
      rw [List.append_assoc, List.drop_left' hoff]
    have hbefore : (bitsMsb off ++ bitsMsb len ++ r).take 11 = bitsMsb off := by
      rw [List.append_assoc, List.take_left' hoff]
    rw [encodeToken, List.cons_append, decodeToken_false _ (by simp; omega), hbefore, hafter, List.take_left' hlen,
      List.drop_left' hfields, ofNat_val_bitsMsb, ofNat_val_bitsMsb]

/-- The bits the decoder takes off are the encoding of its answer (R88: every pattern is legal, so none is dropped). -/
theorem encodeToken_append_of_decodeToken {q r : List Bool} {tok : Token} (h : decodeToken q = some (tok, r)) :
    q = encodeToken tok ++ r := by
  obtain ⟨q, rfl, hlen, rfl, rfl⟩ | ⟨q, rfl, hlen, rfl, rfl⟩ := decodeToken_some h
  · rw [encodeToken, bitsMsb_val _ 8 (by simp [hlen]), List.cons_append, List.take_append_drop]
  · have hoff : (q.take 11).length = 11 := by simp; omega
    have hlen : ((q.drop 11).take 4).length = 4 := by simp; omega
    rw [encodeToken, bitsMsb_val _ 11 hoff, bitsMsb_val _ 4 hlen, ← List.take_add, List.cons_append,
      List.take_append_drop]

/-- The decoder reads one token and nothing else out of a token's encoding. -/
theorem decode_encodeToken (tok : Token) : decode (.token (encodeToken tok)) = .ok tok.toInstr := by
  have h : decodeToken (encodeToken tok) = some (tok, []) := by
    simpa using decodeToken_encodeToken_append tok []
  simp only [decode, h]

/-- Settles O8: a command is read back from its opcode row, a token by `decode_encodeToken`. -/
theorem decodeReadsBackEncode : Obligations.DecodeReadsBackEncode := by
  intro i hi
  cases i with
  | reserved0 | cfgMagic | start | poll | progress | verify | release | reserved7 => exact ⟨_, rfl, rfl⟩
  | lit d => exact ⟨_, rfl, decode_encodeToken (.lit d)⟩
  | ref off len => exact ⟨_, rfl, decode_encodeToken (.ref off len)⟩
  | crcInit | crcStep | crcUpdate | crcFinal | hdrFeed | hdrValidate | lzInit | emit | lzFeedByte | lzFeed =>
    exact absurd hi Bool.false_ne_true

/-- Settles O9: each of the two formats is put together again from its fields. -/
theorem decodedTokenSpellsItsBits : Obligations.DecodedTokenSpellsItsBits :=
  fun _ _ _ => encodeToken_append_of_decodeToken

/-- Settles O11: the two transactions by their opcode rows, the two tokens because their bits are the encodings. -/
theorem writtenOutWordsDecode : Obligations.WrittenOutWordsDecode :=
  ⟨rfl, rfl, decode_encodeToken (.lit 0x41#8), decode_encodeToken (.ref 2031#11 2#4)⟩

/-! ## Token lists (R157) -/

/-- What `rest` leaves holds no complete token. -/
theorem decodeToken_rest (q : List Bool) : decodeToken (rest q) = none := by
  cases h : decodeToken q with
  | none => rw [(tokens_none h).2, h]
  | some p =>
    have hlt := decodeToken_rest_lt (tok := p.1) (r := p.2) h
    rw [(tokens_some (tok := p.1) (r := p.2) h).2]
    exact decodeToken_rest p.2
termination_by q.length

theorem pendingOnly_rest (q : List Bool) : Machine.pendingOnly (rest q) :=
  (decodeToken_none_iff _).mp (decodeToken_rest q)

/-- A token list is cut back out of its encodings, and the padding behind it is the rest. -/
theorem tokens_rest_encode (toks : List Token) {pad : List Bool} (hpad : Machine.pendingOnly pad) :
    tokens (toks.flatMap encodeToken ++ pad) = toks ∧ rest (toks.flatMap encodeToken ++ pad) = pad := by
  induction toks with
  | nil => exact tokens_none ((decodeToken_none_iff pad).mpr hpad)
  | cons tok toks ih =>
    obtain ⟨htoks, hrest⟩ := ih
    rw [List.flatMap_cons, List.append_assoc]
    have hcut := tokens_some (decodeToken_encodeToken_append tok (toks.flatMap encodeToken ++ pad))
    rw [hcut.1, hcut.2, htoks, hrest]
    exact ⟨rfl, rfl⟩

/-- Any bit sequence becomes whole payload bytes with at most 7 bits of padding behind it (R84). -/
theorem exists_payload_of_bits (q : List Bool) :
    ∃ (bytes : List Byte) (pad : List Bool), pad.length ≤ 7 ∧ payloadBits bytes = q ++ pad := by
  have byteOf : ∀ x : List Bool, x.length = 8 → msb8 (BitVec.ofNat 8 (val x)) = x := fun x => bitsMsb_val x 8
  by_cases hq : q = []
  · exact ⟨[], [], by simp, by simp [hq]⟩
  by_cases hshort : q.length < 8
  · have hpos := List.length_pos_of_ne_nil hq
    obtain ⟨pad, hlen⟩ : ∃ pad : List Bool, q.length + pad.length = 8 :=
      ⟨List.replicate (8 - q.length) false, by simp; omega⟩
    refine ⟨[BitVec.ofNat 8 (val (q ++ pad))], pad, by omega, ?_⟩
    rw [payloadBits_cons, byteOf _ (by simp; omega), payloadBits_nil, List.append_nil]
  · obtain ⟨bytes, pad, hpad, hbytes⟩ := exists_payload_of_bits (q.drop 8)
    refine ⟨BitVec.ofNat 8 (val (q.take 8)) :: bytes, pad, hpad, ?_⟩
    rw [payloadBits_cons, byteOf _ (by simp; omega), hbytes, ← List.append_assoc, List.take_append_drop]
termination_by q.length
decreasing_by
  have := List.length_pos_of_ne_nil hq
  simp
  omega

/-! ## Numbers (R92, R93) -/

/-- The spec numbers the codes downward from -1 in the order of its table. -/
theorem errNumber_eq (e : ErrCode) : errNumber e = -(e.ctorIdx + 1 : Int) := by
  cases e <;> rfl

/-- Settles O12: the numbers are those of the codes' places in the table. -/
theorem errorCodesNegativeAndDistinct : Obligations.ErrorCodesNegativeAndDistinct := by
  refine ⟨fun e => ?negative, fun e e' h => ?distinct⟩
  case negative => rw [errNumber_eq]; omega
  case distinct =>
    rw [errNumber_eq, errNumber_eq] at h
    have hidx : e.ctorIdx = e'.ctorIdx := by omega
    rw [← ErrCode.ofNat_ctorIdx e, hidx, ErrCode.ofNat_ctorIdx]

/-- Settles O13: counts are not negative and keep their value, codes are negative and distinct, 0 and 1 are
neither. -/
theorem resultNumbersInjectivePerCommand : Obligations.ResultNumbersInjectivePerCommand := by
  intro table
  refine ⟨fun c => ?fixed, fun c c' => table.distinct c c', fun n n' => Int.ofNat.inj, fun n c => ?count⟩
  case fixed =>
    have hneg := table.negative c
    simp only [Res.toInt]
    omega
  case count =>
    have hneg := table.negative c
    simp only [Res.toInt]
    omega

end Sys2Proof
end

section
/-! The LZ unit (42_lzss.md): a REF byte by byte, a payload as the tokens of its bits, and the relation between the
dictionary and the output. -/

namespace Sys2Proof.Machine

/-! ## REF (R154) -/

/-- Byte `k` of a copy: a byte the copy has stored itself where the distance of the read index from the cursor is less
than `k`, the old dictionary byte otherwise. -/
theorem copied_getD_eq {n k : Nat} (i : Nat) (s : State) (hk : k < n) (hn : n ≤ 2048) :
    (copied n i s).getD k 0 =
      if (i + k + 2048 - s.ctx.wcur.toNat) % 2048 < k
        then (copied n i s).getD ((i + k + 2048 - s.ctx.wcur.toNat) % 2048) 0 else dictRead (i + k) s := by
  rw [copied_getD n i s hk, dictRead_copyBytes k i (i + k) s (by omega)]
  generalize (i + k + 2048 - s.ctx.wcur.toNat) % 2048 = d
  by_cases hd : d < k
  · rw [if_pos hd, if_pos hd, copied_getD k i s hd, copied_getD n i s (by omega)]
  · rw [if_neg hd, if_neg hd]

/-- A copy stores its byte `k` at distance `k` from the cursor. -/
theorem dictRead_copyBytes_at_cursor {n k : Nat} (i : Nat) (s : State) (hk : k < n) (hn : n ≤ 2048) :
    dictRead (s.ctx.wcur.toNat + k) (copyBytes n i s) = (copied n i s).getD k 0 := by
  have hdist : (s.ctx.wcur.toNat + k + 2048 - s.ctx.wcur.toNat) % 2048 = k := by omega
  rw [dictRead_copyBytes n i _ s hn, hdist, if_pos hk]

/-- A copy leaves every index it does not store to. -/
theorem dictRead_copyBytes_elsewhere {n j : Nat} (i : Nat) (s : State) (hn : n ≤ 2048)
    (hj : ∀ k, k < n → j % 2048 ≠ (s.ctx.wcur.toNat + k) % 2048) :
    dictRead j (copyBytes n i s) = dictRead j s := by
  have hcursor := cursor_lt s
  rw [dictRead_copyBytes n i j s hn, if_neg]
  intro hd
  exact hj _ hd (by omega)

theorem runToken_ref (off : BitVec 11) (len : BitVec 4) (s : State) :
    runToken (.ref off len) s = copyBytes (len.toNat + 2) off.toNat s := rfl

/-- A REF copies 2 to 17 bytes, far fewer than the dictionary holds. -/
theorem ref_length_le (len : BitVec 4) : len.toNat + 2 ≤ 17 := by
  have := len.isLt
  omega

/-- Settles O48: the copy's bytes, its stores and its frame, each by its lemma. -/
theorem refCopiesByteByByte : Obligations.RefCopiesByteByByte := by
  intro off len s
  have hle := ref_length_le len
  have hlen := copied_length (len.toNat + 2) off.toNat s
  refine ⟨_, copied (len.toNat + 2) off.toNat s, exec_ref off len s, hlen, ?bytes, ?stores, ?elsewhere, ?frame⟩
  case bytes => exact fun k hk => copied_getD_eq off.toNat s hk (by omega)
  case stores => exact fun k hk => dictRead_copyBytes_at_cursor off.toNat s hk (by omega)
  case elsewhere => exact fun j => dictRead_copyBytes_elsewhere off.toNat s (by omega)
  case frame =>
    have hout := emitted_copyBytes (len.toNat + 2) off.toNat s
    rw [Emitted, hlen, copyBytes_bitq] at hout
    exact hout

/-- A copy from `p` indices behind the cursor repeats the last `p` bytes, if it is too short to come round the ring. -/
theorem copied_behind_cursor {n p k : Nat} (s : State) (hp : 1 ≤ p) (hround : n + p ≤ 2048) (hk : k < n) :
    (copied n ((s.ctx.wcur.toNat + 2048 - p) % 2048) s).getD k 0 =
      dictRead (s.ctx.wcur.toNat + 2048 - p + k % p) s := by
  have hcursor := cursor_lt s
  induction k using Nat.strong_induction_on with
  | _ k ih =>
    rw [copied_getD_eq _ s hk (by omega)]
    by_cases hkp : k < p
    · rw [if_neg (by omega), Nat.mod_eq_of_lt hkp]
      exact dictRead_of_mod_eq s (by omega)
    · have hdist : ((s.ctx.wcur.toNat + 2048 - p) % 2048 + k + 2048 - s.ctx.wcur.toNat) % 2048 = k - p := by omega
      rw [hdist, if_pos (by omega), ih (k - p) (by omega) (by omega), ← Nat.mod_eq_sub_mod (by omega)]

/-- Settles O49: at most 17 bytes from at most 17 indices behind the cursor never come round the ring. -/
theorem refBehindCursorRepeats : Obligations.RefBehindCursorRepeats := by
  intro p len s hp hp17
  have hle := ref_length_le len
  have hcursor := cursor_lt s
  have hoff : (s.ctx.wcur - BitVec.ofNat 11 p).toNat = (s.ctx.wcur.toNat + 2048 - p) % 2048 := by
    rw [BitVec.toNat_sub, BitVec.toNat_ofNat]
    omega
  refine ⟨_, _, exec_ref _ len s, ?sink, copied_length (len.toNat + 2) ((s.ctx.wcur.toNat + 2048 - p) % 2048) s,
    fun k hk => copied_behind_cursor s hp (by omega) hk⟩
  case sink => rw [runToken_ref, hoff, emitted_copyBytes]

/-- A copy from the cursor reads every byte before it is stored. -/
theorem copied_at_cursor {n k : Nat} (s : State) (hk : k < n) (hn : n ≤ 2048) :
    (copied n s.ctx.wcur.toNat s).getD k 0 = dictRead (s.ctx.wcur.toNat + k) s := by
  rw [copied_getD_eq _ s hk hn, if_neg (by omega)]

/-- Storing the bytes that stand there already leaves the dictionary. -/
theorem copyBytes_at_cursor_dict {n : Nat} (s : State) (hn : n ≤ 2048) :
    (copyBytes n s.ctx.wcur.toNat s).ctx.dict = s.ctx.dict := by
  refine dict_ext fun j => ?_
  have hcursor := cursor_lt s
  rw [dictRead_copyBytes _ _ j s hn]
  by_cases hd : (j + 2048 - s.ctx.wcur.toNat) % 2048 < n
  · rw [if_pos hd, copied_at_cursor s hd hn]
    exact dictRead_of_mod_eq s (by omega)
  · rw [if_neg hd]

/-- Settles O50. -/
theorem refAtCursorKeepsDictionary : Obligations.RefAtCursorKeepsDictionary := by
  intro len s
  have hle := ref_length_le len
  refine ⟨_, _, exec_ref _ len s, copyBytes_at_cursor_dict s (by omega), ?sink,
    copied_length (len.toNat + 2) s.ctx.wcur.toNat s, fun k hk => copied_at_cursor s hk (by omega)⟩
  case sink => rw [runToken_ref, emitted_copyBytes]

/-! ## `lz_init` (R150) -/

/-- Settles O46: the two regions of the seeded dictionary. -/
theorem lzInitSeedsDictionary : Obligations.LzInitSeedsDictionary :=
  fun tail s => ⟨lzInit tail s, exec_lzInit tail s, fun _ => dictRead_lzInit_seeded tail s,
    dictRead_lzInit_tail tail s, rfl⟩

/-! ## The pending bits (R156, R157) -/

@[simp] theorem setBitq_setBitq (q q' : List Bool) (s : State) : setBitq q (setBitq q' s) = setBitq q s := rfl

theorem setBitq_self (s : State) : setBitq s.ctx.bitq.bits s = s := by
  simp only [setBitq, ofBits_self]

/-- A payload byte, from a queue that holds no complete token: the bits that stay pending are those the decoder leaves,
and they hold none either. -/
theorem pendingOnly_lzFeedByte {s : State} (b : Byte) (h : pendingOnly s.ctx.bitq.bits) :
    pendingOnly (lzFeedByte b s).ctx.bitq.bits := by
  obtain ⟨hnone, hroom, hrun⟩ | ⟨tok, r, hsome, -, hrun⟩ := lzFeedByte_cases b s
  · rw [hrun, setBitq_bitq, ofBits_bits hroom]
    exact (decodeToken_none_iff _).mp hnone
  · have hshort := rest_short_after_byte b h hsome
    rw [hrun, setBitq_bitq, ofBits_bits (by omega)]
    exact pendingOnly_of_short hshort

theorem pendingOnly_lzFeed {s : State} (bytes : List Byte) (h : pendingOnly s.ctx.bitq.bits) :
    pendingOnly (lzFeed bytes s).ctx.bitq.bits := by
  induction bytes generalizing s with
  | nil => exact h
  | cons b bytes ih => exact ih (pendingOnly_lzFeedByte b h)

/-- Settles O53. -/
theorem pendingQueueStaysBelowToken : Obligations.PendingQueueStaysBelowToken := by
  intro b s t h hexec
  obtain rfl := Host.Outcome.next.inj hexec
  exact pendingOnly_lzFeedByte b h

/-- Settles O54: the frame and the bound are those of `emitted_lzFeed`. -/
theorem lzFeedExpandsAtMostSeventeenfold : Obligations.LzFeedExpandsAtMostSeventeenfold := by
  intro bytes s
  obtain ⟨out, hout, hlen⟩ := emitted_lzFeed bytes s
  exact ⟨lzFeed bytes s, out, exec_lzFeed bytes s, hlen, hout⟩

/-! ## A payload as the tokens of its bits (R157) -/

/-- A token list, executed in order. -/
def runTokens (toks : List Token) (s : State) : State := toks.foldl (fun u tok => runToken tok u) s

@[simp] theorem runTokens_nil (s : State) : runTokens [] s = s := rfl

@[simp] theorem runTokens_cons (tok : Token) (toks : List Token) (s : State) :
    runTokens (tok :: toks) s = runTokens toks (runToken tok s) := rfl

/-- Fed byte by byte, a payload runs the tokens of the pending bits and its own, and the incomplete tail stays
pending. -/
theorem lzFeed_eq_runTokens (bytes : List Byte) {s : State} (h : pendingOnly s.ctx.bitq.bits) :
    lzFeed bytes s = setBitq (rest (s.ctx.bitq.bits ++ payloadBits bytes))
      (runTokens (tokens (s.ctx.bitq.bits ++ payloadBits bytes)) (setBitq [] s)) := by
  induction bytes generalizing s with
  | nil =>
    obtain ⟨htoks, hrest⟩ := tokens_none ((decodeToken_none_iff _).mpr h)
    rw [payloadBits_nil, List.append_nil, htoks, hrest, runTokens_nil, setBitq_setBitq, setBitq_self, lzFeed_nil]
  | cons b bytes ih =>
    have hih := ih (pendingOnly_lzFeedByte b h)
    rw [lzFeed_cons, hih, payloadBits_cons, ← List.append_assoc]
    obtain ⟨-, hroom, hrun⟩ | ⟨tok, r, hsome, hroom, hrun⟩ := lzFeedByte_cases b s
    · rw [hrun, setBitq_bitq, ofBits_bits hroom, setBitq_setBitq]
    · obtain ⟨htoks, hrest⟩ := tokens_some (decodeToken_append hsome (payloadBits bytes))
      rw [hrun, setBitq_bitq, ofBits_bits (by omega), setBitq_setBitq, htoks, hrest, runTokens_cons, runToken_setBitq]

/-- Settles O55. -/
theorem streamRunsTokensOfItsBits : Obligations.StreamRunsTokensOfItsBits := by
  intro bytes s h
  obtain ⟨hlen, -⟩ := pendingOnly_rest (s.ctx.bitq.bits ++ payloadBits bytes)
  exact ⟨hlen, by rw [exec_lzFeed, lzFeed_eq_runTokens bytes h, runTokens]⟩

/-- A payload that spells a token list runs it and keeps the padding (R84, R88). -/
theorem lzFeed_encoded {toks : List Token} {pad : List Bool} {bytes : List Byte} {s : State}
    (hempty : s.ctx.bitq.bits = []) (hpad : pad.length ≤ 7)
    (hbytes : payloadBits bytes = toks.flatMap encodeToken ++ pad) :
    lzFeed bytes s = setBitq pad (runTokens toks s) := by
  obtain ⟨htoks, hrest⟩ := tokens_rest_encode toks (pendingOnly_of_short hpad)
  have hself : setBitq [] s = s := hempty ▸ setBitq_self s
  rw [lzFeed_eq_runTokens bytes (by rw [hempty]; exact pendingOnly_of_short (Nat.zero_le 7)), hempty, List.nil_append,
    hbytes, htoks, hrest, hself]

/-- Settles O56. -/
theorem encodedTokensDecode : Obligations.EncodedTokensDecode := by
  intro toks pad bytes s hempty hpad hbytes
  rw [exec_lzFeed, lzFeed_encoded hempty hpad hbytes, runTokens]

/-- A list of literals emits its bytes (R161). -/
theorem emitted_runTokens_lits (x : List Byte) (s : State) : Emitted x s (runTokens (x.map Token.lit) s) := by
  induction x generalizing s with
  | nil => exact Emitted.refl s
  | cons d x ih => exact (emitted_emit d s).trans (ih (emit d s))

theorem Emitted.sink_eq {out : List Byte} {s t : State} (h : Emitted out s t) : t.sink = s.sink ++ out := by rw [h]

theorem Emitted.written_eq {out : List Byte} {s t : State} (h : Emitted out s t) :
    t.ctx.written = s.ctx.written + out.length := by rw [h]

/-- Settles O57: the literals' bits, filled up to whole bytes, run as the literals. -/
theorem everyOutputHasLiteralPayload : Obligations.EveryOutputHasLiteralPayload := by
  intro x
  obtain ⟨bytes, pad, hpad, hbytes⟩ := exists_payload_of_bits ((x.map Token.lit).flatMap encodeToken)
  refine ⟨bytes, pad, hpad, hbytes, fun s hempty => ⟨_, exec_lzFeed bytes s, ?_⟩⟩
  have hout := emitted_runTokens_lits x s
  rw [lzFeed_encoded hempty hpad hbytes, setBitq_sink, setBitq_written]
  exact ⟨hout.sink_eq, hout.written_eq⟩

/-! ## The dictionary and the output (R162, R163) -/

/-- The relation of R163 speaks of the dictionary, the count and the sink alone. -/
theorem DictMatches.congr {tail : Vector Byte 17} {s t : State} (h : DictMatches tail s)
    (hdict : t.ctx.dict = s.ctx.dict) (hwritten : t.ctx.written = s.ctx.written) (hsink : t.sink = s.sink) :
    DictMatches tail t := by
  have hread : ∀ i, dictRead i t = dictRead i s := dictRead_congr hdict
  refine ⟨?logged, ?window, ?untouched⟩
  case logged => rw [hwritten, hsink]; exact h.logged
  case window => intro j; rw [hwritten, hsink, hread]; exact h.window j
  case untouched => intro i; rw [hwritten, hread]; exact h.untouched i

/-- R163 with the cursor it is kept with (R35): the byte written next stands at index `2031 + written`. -/
def DictTracks (tail : Vector Byte 17) (s : State) : Prop :=
  DictMatches tail s ∧ s.ctx.wcur.toNat = (2031 + s.ctx.written) % 2048

/-- `emit` writes the next output byte at the index R163 gives it. -/
theorem dictTracks_emit {tail : Vector Byte 17} {s : State} (v : Byte) (h : DictTracks tail s) :
    DictTracks tail (emit v s) := by
  obtain ⟨⟨hlogged, hwindow, huntouched⟩, hcursor⟩ := h
  refine ⟨⟨?logged, ?window, ?untouched⟩, ?cursor⟩
  case logged => simpa using hlogged
  case window =>
    intro j hj hin
    rw [emit_written] at hj hin
    rw [dictRead_emit, hcursor, emit_sink, emit_written, List.length_append, List.length_singleton,
      Nat.add_sub_add_right]
    by_cases hnew : j = s.ctx.written
    · rw [if_pos (by rw [hnew]), List.getElem?_append_right (by omega),
        show s.sink.length - s.ctx.written + j - s.sink.length = 0 by omega]
      rfl
    · rw [if_neg (by omega), List.getElem?_append_left (by omega)]
      exact hwindow j (by omega) (by omega)
  case untouched =>
    intro i hi
    rw [emit_written] at hi
    have hne : i % 2048 ≠ s.ctx.wcur.toNat := by
      rw [hcursor]
      exact (hi s.ctx.written (Nat.lt_succ_self _)).symm
    rw [dictRead_emit, if_neg hne]
    exact huntouched i fun j hj => hi j (by omega)
  case cursor =>
    have hone : (1 : BitVec 11).toNat = 1 := rfl
    rw [emit_wcur, emit_written, BitVec.toNat_add, hcursor, hone]
    omega

theorem dictTracks_copyBytes {tail : Vector Byte 17} {s : State} (n i : Nat) (h : DictTracks tail s) :
    DictTracks tail (copyBytes n i s) := by
  induction n with
  | zero => exact h
  | succ n ih => rw [copyBytes_succ]; exact dictTracks_emit _ ih

theorem dictTracks_runToken {tail : Vector Byte 17} {s : State} (tok : Token) (h : DictTracks tail s) :
    DictTracks tail (runToken tok s) := by
  cases tok with
  | lit d => exact dictTracks_emit d h
  | ref off len => exact dictTracks_copyBytes _ _ h

theorem dictTracks_setBitq {tail : Vector Byte 17} {s : State} (q : List Bool) (h : DictTracks tail s) :
    DictTracks tail (setBitq q s) :=
  ⟨h.1.congr rfl rfl rfl, h.2⟩

theorem dictTracks_lzFeedByte {tail : Vector Byte 17} {s : State} (b : Byte) (h : DictTracks tail s) :
    DictTracks tail (lzFeedByte b s) := by
  obtain ⟨-, -, hrun⟩ | ⟨tok, r, -, -, hrun⟩ := lzFeedByte_cases b s
  · rw [hrun]
    exact dictTracks_setBitq _ h
  · rw [hrun]
    exact dictTracks_setBitq _ (dictTracks_runToken tok h)

theorem dictTracks_lzFeed {tail : Vector Byte 17} {s : State} (bytes : List Byte) (h : DictTracks tail s) :
    DictTracks tail (lzFeed bytes s) := by
  induction bytes generalizing s with
  | nil => exact h
  | cons b bytes ih => exact ih (dictTracks_lzFeedByte b h)

/-- A dictionary just seeded matches an output that is still empty. -/
theorem dictMatches_of_seeded {tail : Vector Byte 17} {s : State} (hwritten : s.ctx.written = 0)
    (hdict : s.ctx.dict = seededDict tail) : DictMatches tail s := by
  refine ⟨by omega, fun j hj => by omega, fun i _ => ?_⟩
  simp only [dictRead, hdict]

/-- Settles O58. -/
theorem dictionaryHoldsOutput : Obligations.DictionaryHoldsOutput := by
  intro tail b s t hmatch hcursor hexec
  obtain rfl := Host.Outcome.next.inj hexec
  exact dictTracks_lzFeedByte b ⟨hmatch, hcursor⟩

/-- An index was written last by the latest output byte that falls on it, or not at all. -/
theorem last_write_or_untouched (w i : Nat) :
    (∃ j, j < w ∧ w ≤ j + 2048 ∧ (2031 + j) % 2048 = i % 2048) ∨ ∀ j, j < w → (2031 + j) % 2048 ≠ i % 2048 := by
  by_cases hd : (2031 + w + 2047 - i % 2048) % 2048 < w
  · exact .inl ⟨w - 1 - (2031 + w + 2047 - i % 2048) % 2048, by omega, by omega, by omega⟩
  · exact .inr fun j hj => by omega

/-- Settles O59: an index in the window shows the output, and after 17 bytes an index outside it is below the tail. -/
theorem tailInvisibleAfterSeventeen : Obligations.TailInvisibleAfterSeventeen := by
  intro tail tail' s s' hmatch hmatch' hseventeen hwritten houtput
  refine dict_ext fun i => ?_
  obtain ⟨j, hj, hin, hmod⟩ | huntouched := last_write_or_untouched s.ctx.written i
  · have hbyte := hmatch.window j hj hin
    have hbyte' := hmatch'.window j (by omega) (by omega)
    rw [← List.getElem?_drop] at hbyte hbyte'
    rw [houtput, hbyte] at hbyte'
    rw [← dictRead_of_mod_eq s hmod, ← dictRead_of_mod_eq s' hmod]
    exact (Option.some.inj hbyte').symm
  · have hlow : i % 2048 < 2031 := by
      by_contra hhigh
      exact huntouched (i % 2048 - 2031) (by omega) (by omega)
    rw [hmatch.untouched i huntouched, hmatch'.untouched i (hwritten ▸ huntouched), seededDict_getElem,
      seededDict_getElem, dif_pos hlow, dif_pos hlow]

end Sys2Proof.Machine
end

section
/-! The CRC unit's algebra (40_crc.md section 3): the loop is linear, which gives the table form, and it loses no bit,
which makes a step a bijection. -/

namespace Sys2Proof.Machine

/-- The loop is the iterate of its pass. -/
theorem crcLoop_eq_iterate (n : Nat) (c : Word) : crcLoop n c = crcShift^[n] c := by
  induction n generalizing c with
  | zero => rfl
  | succ n ih => exact ih (crcShift c)

/-- Settles O36: the eighth iterate, with the pass written out. -/
theorem crcStepRunsEightPasses : Obligations.CrcStepRunsEightPasses := by
  intro c b s
  rw [exec_crcStep, crcStep, crcLoop_eq_iterate]
  rfl

theorem crcUpdate_append (c : Word) (a b : List Byte) : crcUpdate c (a ++ b) = crcUpdate (crcUpdate c a) b :=
  List.foldl_append

/-- Settles O38. -/
theorem crcChunkInvariance : Obligations.CrcChunkInvariance :=
  fun c a b => (crcUpdate_append c a b).symm

/-- Bit `i` after a pass: the bit above it, and the polynomial's where the bit shifted out was 1. -/
theorem crcShift_getLsbD (c : Word) (i : Nat) :
    (crcShift c).getLsbD i = (c.getLsbD (i + 1) ^^ (c.getLsbD 0 && crcPoly.getLsbD i)) := by
  unfold crcShift
  cases h : c.getLsbD 0 <;> simp [Nat.add_comm]

/-- One pass is linear. -/
theorem crcShift_xor (a b : Word) : crcShift (a ^^^ b) = crcShift a ^^^ crcShift b := by
  refine BitVec.eq_of_getLsbD_eq fun i _ => ?_
  simp only [crcShift_getLsbD, BitVec.getLsbD_xor, Bool.and_xor_distrib_right, Bool.xor_assoc, Bool.xor_left_comm]

theorem crcLoop_xor (n : Nat) (a b : Word) : crcLoop n (a ^^^ b) = crcLoop n a ^^^ crcLoop n b := by
  induction n generalizing a b with
  | zero => rfl
  | succ n ih => rw [crcLoop, crcShift_xor, ih]; rfl

/-- While the bits shifted out are 0 the loop only shifts. -/
theorem crcLoop_of_low_zero (n : Nat) {c : Word} (h : ∀ i, i < n → c.getLsbD i = false) : crcLoop n c = c >>> n := by
  induction n generalizing c with
  | zero => simp [crcLoop]
  | succ n ih =>
    have hpass : crcShift c = c >>> 1 := by rw [crcShift, h 0 (Nat.succ_pos n), if_neg Bool.false_ne_true]
    have hlow : ∀ i, i < n → (c >>> 1).getLsbD i = false := by
      intro i hi
      rw [BitVec.getLsbD_ushiftRight]
      exact h (1 + i) (by omega)
    rw [crcLoop, hpass, ih hlow, ← BitVec.shiftRight_add, Nat.add_comm]

/-- A word is its upper bits and its low byte. -/
theorem word_eq_high_xor_low (x : Word) : x = (x >>> 8) <<< 8 ^^^ (x.setWidth 8).setWidth 32 := by
  refine BitVec.eq_of_getLsbD_eq fun i hi => ?_
  by_cases hlow : i < 8
  · simp [hlow, hi]
  · simp [hlow, hi, show 8 + (i - 8) = i by omega]

/-- A byte joins the checksum state below its upper bits. -/
theorem xor_byte_shift (c : Word) (b : Byte) : (c ^^^ b.setWidth 32) >>> 8 = c >>> 8 := by
  refine BitVec.eq_of_getLsbD_eq fun i hi => ?_
  simp

/-- The table form of eight passes (R116): the upper bits only shift, the low byte goes through the table. -/
theorem crcLoop_eight (x : Word) : crcLoop 8 x = x >>> 8 ^^^ crcTable (x.setWidth 8) := by
  have hlow : ∀ i, i < 8 → ((x >>> 8) <<< 8).getLsbD i = false := by
    intro i hi
    simp [hi]
  have hback : (x >>> 8) <<< 8 >>> 8 = x >>> 8 := by
    refine BitVec.eq_of_getLsbD_eq fun i hi => ?_
    by_cases h : 8 + i < 32
    · simp [h]
    · simp [h, BitVec.getLsbD_of_ge x (8 + i) (by omega)]
  calc crcLoop 8 x
      = crcLoop 8 ((x >>> 8) <<< 8 ^^^ (x.setWidth 8).setWidth 32) := by rw [← word_eq_high_xor_low]
    _ = crcLoop 8 ((x >>> 8) <<< 8) ^^^ crcTable (x.setWidth 8) := crcLoop_xor 8 _ _
    _ = x >>> 8 ^^^ crcTable (x.setWidth 8) := by rw [crcLoop_of_low_zero 8 hlow, hback]

/-- Settles O39. -/
theorem crcTableFormEqualsLoop : Obligations.CrcTableFormEqualsLoop := by
  intro c b
  rw [crcStep, crcLoop_eight, xor_byte_shift]

/-- The bit a pass shifts out is kept: the polynomial's top bit is 1, so it becomes the top bit. -/
theorem crcShift_injective : Function.Injective crcShift := by
  intro a b h
  have hbit : ∀ i, (crcShift a).getLsbD i = (crcShift b).getLsbD i := fun i => by rw [h]
  have htop : ∀ c : Word, (crcShift c).getLsbD 31 = c.getLsbD 0 := by
    intro c
    have hpoly : crcPoly.getLsbD 31 = true := rfl
    rw [crcShift_getLsbD, BitVec.getLsbD_of_ge c 32 le_rfl, hpoly, Bool.and_true, Bool.false_xor]
  have hzero : a.getLsbD 0 = b.getLsbD 0 := by rw [← htop a, ← htop b, h]
  refine BitVec.eq_of_getLsbD_eq fun i _ => ?_
  cases i with
  | zero => exact hzero
  | succ i =>
    have hi := hbit i
    rw [crcShift_getLsbD, crcShift_getLsbD, hzero] at hi
    exact Bool.xor_left_inj.mp hi

theorem crcLoop_injective (n : Nat) : Function.Injective (crcLoop n) := by
  have hloop : crcLoop n = crcShift^[n] := funext (crcLoop_eq_iterate n)
  rw [hloop]
  exact crcShift_injective.iterate n

/-- Settles O40: XOR with a byte and the loop are injective, and the states are finitely many. -/
theorem crcStepIsBijective : Obligations.CrcStepIsBijective := by
  intro b
  refine Function.Injective.bijective_of_finite fun c c' h => ?_
  exact (BitVec.xor_left_inj _).mp (crcLoop_injective 8 h)

end Sys2Proof.Machine
end

section
/-! The HDR unit (41_header.md): the fill does not see how its bytes are cut, the order of the checks, and the words
and bit-fields of the record (20_memory.md R65, 30_encoding.md R82). -/

namespace Sys2Proof.Machine

/-! ## The fill -/

/-- What two feeds consume together is what one feed of both consumes. -/
theorem hdrRoom_append (a b : List Byte) (s : State) :
    hdrRoom s.ctx.hdrFill a + hdrRoom (hdrFeed a s).ctx.hdrFill b = hdrRoom s.ctx.hdrFill (a ++ b) := by
  simp only [hdrRoom, hdrFeed_hdrFill_val, List.length_append]
  omega

/-- The bytes two feeds consume, one after the other, are those one feed of both consumes. -/
theorem take_hdrRoom_append (a b : List Byte) (s : State) :
    (a ++ b).take (hdrRoom s.ctx.hdrFill (a ++ b)) =
      a.take (hdrRoom s.ctx.hdrFill a) ++ b.take (hdrRoom (hdrFeed a s).ctx.hdrFill b) := by
  have hsum := hdrRoom_append a b s
  by_cases hall : s.ctx.hdrFill.val + a.length ≤ 20
  · have ha : hdrRoom s.ctx.hdrFill a = a.length := by unfold hdrRoom; omega
    rw [← hsum, ha, List.take_length_add_append, List.take_length]
  · have hb : hdrRoom (hdrFeed a s).ctx.hdrFill b = 0 := by
      simp only [hdrRoom, hdrFeed_hdrFill_val]
      omega
    rw [← hsum, hb, Nat.add_zero, List.take_append_of_le_length (hdrRoom_le_length _ _), List.take_zero,
      List.append_nil]

/-- Feeding a sequence is feeding its parts one after the other. -/
theorem hdrFeed_append (a b : List Byte) (s : State) : hdrFeed (a ++ b) s = hdrFeed b (hdrFeed a s) := by
  have hhdr : (hdrFeed (a ++ b) s).ctx.hdr = (hdrFeed b (hdrFeed a s)).ctx.hdr := by
    rw [hdrFeed_hdr, hdrFeed_hdr, hdrFeed_hdr, take_hdrRoom_append, hdrCopy_append, List.length_take,
      Nat.min_eq_left (hdrRoom_le_length _ _), hdrFeed_hdrFill_val]
  have hfill : (hdrFeed (a ++ b) s).ctx.hdrFill = (hdrFeed b (hdrFeed a s)).ctx.hdrFill := by
    apply Fin.ext
    rw [hdrFeed_hdrFill_val, hdrFeed_hdrFill_val, hdrFeed_hdrFill_val, ← hdrRoom_append a b s, Nat.add_assoc]
  rw [hdrFeed_frame (a ++ b) s, hhdr, hfill]
  rfl

/-- A full header takes no more bytes (R130). -/
theorem hdrFeed_of_full {s : State} (hfull : s.ctx.hdrFill = 20) (bytes : List Byte) : hdrFeed bytes s = s := by
  have hroom : hdrRoom s.ctx.hdrFill bytes = 0 := by
    rw [hdrRoom, hfull]
    exact Nat.min_zero _
  have hfill : (hdrFeed bytes s).ctx.hdrFill = s.ctx.hdrFill := by
    apply Fin.ext
    rw [hdrFeed_hdrFill_val, hroom, Nat.add_zero]
  rw [hdrFeed_frame, hdrFeed_hdr, hroom, hfill]
  rfl

/-- Settles O42. -/
theorem hdrFeedChunkInvariance : Obligations.HdrFeedChunkInvariance :=
  fun a b s => ⟨(hdrFeed_append a b s).symm, hdrRoom_append a b s⟩

/-! ## The checks -/

/-- Settles O43: each verdict of `hdrValidate_cases` excludes the hypotheses of the other two. -/
theorem hdrValidateChecksInOrder : Obligations.HdrValidateChecksInOrder := by
  intro s
  refine ⟨hdrValidate s, exec_hdrValidate s, ?_⟩
  obtain ⟨hv, hlen⟩ | ⟨hv, hlen, hmagic⟩ | ⟨hv, hlen, hmagic⟩ := hdrValidate_cases s
  · exact ⟨fun _ => hv, fun h => absurd h hlen, fun h => absurd h hlen⟩
  · exact ⟨fun h => absurd hlen h, fun _ _ => hv, fun _ h => absurd h hmagic⟩
  · exact ⟨fun h => absurd hlen h, fun _ h => absurd hmagic h, fun _ _ => hv⟩

/-! ## The record -/

/-- A concatenation as a number: the left part counts from the width of the right part upward. -/
theorem toNat_append_eq {n m : Nat} (x : BitVec n) (y : BitVec m) : (x ++ y).toNat = x.toNat * 2 ^ m + y.toNat := by
  rw [BitVec.toNat_append, ← Nat.shiftLeft_add_eq_or_of_lt y.isLt, Nat.shiftLeft_eq]

/-- Settles O44. -/
theorem headerWordsAreLittleEndian : Obligations.HeaderWordsAreLittleEndian := by
  intro b0 b1 b2 b3
  simp only [u32le, toNat_append_eq]
  omega

/-- Settles O45: from the top down, each of the nine fields begins where the one below it ends. -/
theorem versionFieldsTileTheRecord : Obligations.VersionFieldsTileTheRecord := by
  intro v
  simp only [versionFields]
  iterate 8 rw [BitVec.extractLsb'_append_extractLsb'_eq_extractLsb' (by rfl)]
  exact BitVec.extractLsb'_eq_self

end Sys2Proof.Machine
end

section
/-! POLL (43_fsm_commands.md sections 3 and 5): the header as a completing POLL leaves it, the ends of a POLL, and what
each end leaves in the context and in the sink. -/

namespace Sys2Proof.Machine

/-! ## The filled header -/

/-- What a feed that reaches the end of the header leaves in it (R130, R131). -/
theorem hdrFeed_hdr_eq {chunk : List Byte} {s : State} {h : Vector Byte 20}
    (hfull : 20 ≤ s.ctx.hdrFill.val + chunk.length)
    (hh : ∀ i : Fin 20, h[i] = if i.val < s.ctx.hdrFill.val then s.ctx.hdr[i]
      else chunk.getD (i.val - s.ctx.hdrFill.val) 0) : (hdrFeed chunk s).ctx.hdr = h := by
  have hroom : hdrRoom s.ctx.hdrFill chunk = 20 - s.ctx.hdrFill.val := by unfold hdrRoom; omega
  ext i hi
  have hi' := hh ⟨i, hi⟩
  simp only [Fin.getElem_fin] at hi'
  rw [hdrFeed_getElem, hroom, hi']
  by_cases hold : i < s.ctx.hdrFill.val
  · rw [if_neg (by omega), if_pos hold]
  · rw [if_pos (by omega), if_neg hold]

/-- The state in which a POLL that completes the header makes its checks (R184, R185): the header filled, its bytes
counted, the covered ones in the checksum. -/
def headerFilled (chunk : List Byte) (s : State) : State :=
  feedHeaderCrc (countReceived (20 - s.ctx.hdrFill.val) (hdrFeed chunk s))

theorem headerFilled_frame (chunk : List Byte) (s : State) :
    headerFilled chunk s = { s with ctx := { s.ctx with
      hdr := (hdrFeed chunk s).ctx.hdr, hdrFill := (hdrFeed chunk s).ctx.hdrFill
      crc := crcUpdate s.ctx.crc (hdrCovered (hdrFeed chunk s).ctx.hdr)
      received := s.ctx.received + (20 - s.ctx.hdrFill.val) } } := rfl

@[simp] theorem headerFilled_magicCfg (chunk : List Byte) (s : State) :
    (headerFilled chunk s).magicCfg = s.magicCfg := rfl
@[simp] theorem headerFilled_port (chunk : List Byte) (s : State) : (headerFilled chunk s).port = s.port := rfl
@[simp] theorem headerFilled_sink (chunk : List Byte) (s : State) : (headerFilled chunk s).sink = s.sink := rfl
@[simp] theorem headerFilled_results (chunk : List Byte) (s : State) : (headerFilled chunk s).results = s.results := rfl
@[simp] theorem headerFilled_unitResult (chunk : List Byte) (s : State) :
    (headerFilled chunk s).unitResult = s.unitResult := rfl
@[simp] theorem headerFilled_declaredLen (chunk : List Byte) (s : State) :
    (headerFilled chunk s).ctx.declaredLen = s.ctx.declaredLen := rfl

/-- The header's bytes and the rest of the chunk are counted together as the whole chunk (R25). -/
theorem headerFilled_count {chunk : List Byte} {s : State} (hfull : 20 ≤ s.ctx.hdrFill.val + chunk.length) :
    (headerFilled chunk s).ctx.received + (chunk.drop (20 - s.ctx.hdrFill.val)).length
      = s.ctx.received + chunk.length := by
  rw [headerFilled_frame, List.length_drop]
  simp only
  omega

theorem hdrFeed_hdrFill_full {chunk : List Byte} {s : State} (hfull : 20 ≤ s.ctx.hdrFill.val + chunk.length) :
    (hdrFeed chunk s).ctx.hdrFill = 20 := by
  have hlt := s.ctx.hdrFill.isLt
  apply Fin.ext
  rw [hdrFeed_hdrFill_val, hdrRoom, show ((20 : Fin 21) : Nat) = 20 from rfl]
  omega

/-- The ends of a POLL that completes the header (R184, R185): the length check, the magic check, or the rest of the
chunk as payload. -/
theorem pollHeader_full_cases {chunk : List Byte} {s : State} (hfull : 20 ≤ s.ctx.hdrFill.val + chunk.length) :
    (pollHeader chunk s = raise .hdrLength (headerFilled chunk s) ∧
      (hdrLength (hdrFeed chunk s).ctx.hdr).toNat + 8 ≠ s.ctx.declaredLen.toNat) ∨
    (pollHeader chunk s = raise .hdrMagic (headerFilled chunk s) ∧
      (hdrLength (hdrFeed chunk s).ctx.hdr).toNat + 8 = s.ctx.declaredLen.toNat ∧
      hdrMagic (hdrFeed chunk s).ctx.hdr ≠ s.magicCfg) ∨
    (pollHeader chunk s
        = pollFile (chunk.drop (20 - s.ctx.hdrFill.val)) (setPhase .file (headerFilled chunk s)) ∧
      (hdrLength (hdrFeed chunk s).ctx.hdr).toNat + 8 = s.ctx.declaredLen.toNat ∧
      hdrMagic (hdrFeed chunk s).ctx.hdr = s.magicCfg) := by
  obtain ⟨hshort, -⟩ | ⟨-, hrun⟩ := pollHeader_cases chunk s
  · exact absurd hfull (Nat.not_le.mpr hshort)
  · rw [hrun]
    exact headerDone_cases _ _

/-! ## Payload -/

/-- The ends of a POLL in File (R186, R187), by the bytes received. -/
theorem pollFile_cases (chunk : List Byte) (s : State) :
    (s.ctx.received + chunk.length = s.ctx.declaredLen.toNat ∧
      pollFile chunk s = answer .done (setPhase .completed (routed chunk s))) ∨
    (s.ctx.declaredLen.toNat < s.ctx.received + chunk.length ∧ pollFile chunk s = raise .download (routed chunk s)) ∨
    (s.ctx.received + chunk.length < s.ctx.declaredLen.toNat ∧
      pollFile chunk s = answer .inProgress (routed chunk s)) := by
  have hends := completionCheck_cases (routed chunk s)
  rwa [routed_received, routed_declaredLen, ← pollFile_eq] at hends

theorem pollFile_done {bytes : List Byte} {s : State} (h : s.ctx.received + bytes.length = s.ctx.declaredLen.toNat) :
    pollFile bytes s = answer .done (setPhase .completed (routed bytes s)) := by
  obtain ⟨-, hrun⟩ | ⟨hother, -⟩ | ⟨hother, -⟩ := pollFile_cases bytes s
  · exact hrun
  · omega
  · omega

theorem pollFile_overrun {bytes : List Byte} {s : State} (h : s.ctx.declaredLen.toNat < s.ctx.received + bytes.length) :
    pollFile bytes s = raise .download (routed bytes s) := by
  obtain ⟨hother, -⟩ | ⟨-, hrun⟩ | ⟨hother, -⟩ := pollFile_cases bytes s
  · omega
  · exact hrun
  · omega

theorem pollFile_below {bytes : List Byte} {s : State} (h : s.ctx.received + bytes.length < s.ctx.declaredLen.toNat) :
    pollFile bytes s = answer .inProgress (routed bytes s) := by
  obtain ⟨hother, -⟩ | ⟨hother, -⟩ | ⟨-, hrun⟩ := pollFile_cases bytes s
  · omega
  · omega
  · exact hrun

/-- The routed bytes' output is the decoder's. -/
theorem routed_sink {s t : State} (bytes : List Byte) (h : SameDecoder s t) (hsink : s.sink = t.sink) :
    (routed bytes s).sink = (lzFeed bytes t).sink := by
  obtain ⟨out, -, hout, hrun⟩ := routed_spec bytes h
  rw [hrun, hout.sink_eq, ← hsink]

/-- The context after routing: the checksum and the count of R186, and the decoder's elements as the decoder
leaves them. -/
theorem routed_ctx {s t : State} (bytes : List Byte) (h : SameDecoder s t) (hwritten : s.ctx.written = t.ctx.written) :
    (routed bytes s).ctx = { s.ctx with
      crc := crcUpdate s.ctx.crc bytes, received := s.ctx.received + bytes.length
      written := (lzFeed bytes t).ctx.written, dict := (lzFeed bytes t).ctx.dict
      wcur := (lzFeed bytes t).ctx.wcur, bitq := (lzFeed bytes t).ctx.bitq } := by
  obtain ⟨out, -, hout, hrun⟩ := routed_spec bytes h
  rw [hrun, hout.written_eq, ← hwritten]

/-- Routing moves the context and the sink alone. -/
theorem routed_frame (bytes : List Byte) (s : State) :
    routed bytes s = { s with ctx := (routed bytes s).ctx, sink := (routed bytes s).sink } := by
  obtain ⟨out, -, -, hrun⟩ := routed_spec (t := s) bytes ⟨rfl, rfl, rfl⟩
  rw [hrun]

/-- A POLL in File recalls no byte of what it has routed, whatever its end. -/
theorem pollFile_sink (chunk : List Byte) (s : State) : (pollFile chunk s).sink = (routed chunk s).sink := by
  obtain ⟨-, hrun⟩ | ⟨-, hrun⟩ | ⟨-, hrun⟩ := pollFile_cases chunk s <;> rw [hrun] <;> rfl

/-- Within the declared length a POLL in File keeps all it has routed, and moves only the phase beside it. -/
theorem pollFile_within {chunk : List Byte} {s : State}
    (h : s.ctx.received + chunk.length ≤ s.ctx.declaredLen.toNat) :
    ∃ r p, pollFile chunk s = answer r (setPhase p (routed chunk s)) := by
  obtain ⟨-, hrun⟩ | ⟨hover, -⟩ | ⟨-, hrun⟩ := pollFile_cases chunk s
  · exact ⟨_, _, hrun⟩
  · exact absurd h (Nat.not_le.mpr hover)
  · exact ⟨_, (routed chunk s).st, hrun⟩

/-! ## The statements -/

/-- Settles O21: the chunk is consumed whole, so the frame of `hdr_feed` and the count are all that moves. -/
theorem pollFillsIncompleteHeader : Obligations.PollFillsIncompleteHeader := by
  intro chunk s hst hshort
  have hroom : hdrRoom s.ctx.hdrFill chunk = chunk.length := by unfold hdrRoom; omega
  obtain ⟨-, hrun⟩ | ⟨hfull, -⟩ := pollHeader_cases chunk s
  · refine ⟨_, exec_poll chunk s, ?_⟩
    rw [poll_header hst, hrun]
    refine ⟨?fill, ?index, rfl⟩
    case fill => rw [answer_ctx, countReceived_hdrFill, hdrFeed_hdrFill_val, hroom]
    case index =>
      intro i
      have hi := hdrFeed_getElem chunk s i.val i.isLt
      rw [hroom] at hi
      exact hi
  · exact absurd hfull (Nat.not_le.mpr hshort)

/-- Settles O22: the checks read the filled header, and after them the completion test counts every byte. -/
theorem pollCompletingHeaderTransitions : Obligations.PollCompletingHeaderTransitions := by
  intro chunk s h hst hreceived hfull hh
  have hhdr := hdrFeed_hdr_eq hfull hh
  have hpoll : exec (.poll chunk) s = .next (pollHeader chunk s) := by rw [exec_poll, poll_header hst]
  have hends := pollHeader_full_cases hfull
  rw [hhdr] at hends
  obtain ⟨hrun, hlen⟩ | ⟨hrun, hlen, hmagic⟩ | ⟨hrun, hlen, hmagic⟩ := hends
  · refine ⟨_, .err .hdrLength, hpoll, ?_⟩
    rw [hrun, if_pos hlen]
    simp [errorPhase]
  · refine ⟨_, .err .hdrMagic, hpoll, ?_⟩
    rw [hrun, if_neg (not_not.mpr hlen), if_pos hmagic]
    simp [errorPhase]
  · have hfile := pollFile_cases (chunk.drop (20 - s.ctx.hdrFill.val)) (setPhase .file (headerFilled chunk s))
    rw [setPhase_ctx, headerFilled_count hfull, headerFilled_declaredLen, hreceived] at hfile
    simp only [if_neg (not_not.mpr hlen), if_neg (not_not.mpr hmagic)]
    obtain ⟨heq, hend⟩ | ⟨hover, hend⟩ | ⟨hbelow, hend⟩ := hfile
    · refine ⟨_, .done, hpoll, ?_⟩
      rw [hrun, hend, if_neg heq.not_lt, if_pos heq]
      simp
    · refine ⟨_, .err .download, hpoll, ?_⟩
      rw [hrun, hend, if_neg hover.not_gt, if_neg hover.ne']
      simp [errorPhase]
    · refine ⟨_, .inProgress, hpoll, ?_⟩
      rw [hrun, hend, if_pos hbelow]
      simp

/-- Settles O23: a good header leads into File, where the rest of the chunk is routed from the decoder of the old
state. -/
theorem pollCompletingHeaderRoutesRest : Obligations.PollCompletingHeaderRoutesRest := by
  intro chunk s h hst hreceived hfull hh hlen hmagic
  have hhdr := hdrFeed_hdr_eq hfull hh
  have hdecoder : SameDecoder (setPhase .file (headerFilled chunk s)) s := ⟨rfl, rfl, rfl⟩
  have hrun : poll chunk s
      = pollFile (chunk.drop (20 - s.ctx.hdrFill.val)) (setPhase .file (headerFilled chunk s)) := by
    rw [poll_header hst]
    obtain ⟨-, hbad⟩ | ⟨-, -, hbad⟩ | ⟨hrun, -⟩ := pollHeader_full_cases hfull
    · exact absurd (hhdr ▸ hlen) hbad
    · exact absurd (hhdr ▸ hmagic) hbad
    · exact hrun
  refine ⟨_, exec_poll chunk s, ?sink, fun hwithin => ?ctx⟩
  case sink => rw [hrun, pollFile_sink, routed_sink _ hdecoder rfl]
  case ctx =>
    have hcount := headerFilled_count hfull
    rw [hreceived] at hcount
    obtain ⟨r, p, hend⟩ := pollFile_within (s := setPhase .file (headerFilled chunk s)) (hcount.trans_le hwithin)
    rw [hrun, hend, answer_ctx, setPhase_ctx, routed_ctx _ hdecoder rfl, setPhase_ctx, hcount, headerFilled_frame]
    simp only [hhdr, hdrFeed_hdrFill_full hfull, hdrCovered]

/-- Settles O24. -/
theorem pollInFileTransitions : Obligations.PollInFileTransitions := by
  intro chunk s hst
  have hpoll : exec (.poll chunk) s = .next (pollFile chunk s) := by rw [exec_poll, poll_file hst]
  obtain ⟨heq, hend⟩ | ⟨hover, hend⟩ | ⟨hbelow, hend⟩ := pollFile_cases chunk s
  · refine ⟨_, .done, hpoll, ?_⟩
    rw [hend]
    simp [heq]
  · refine ⟨_, .err .download, hpoll, ?_⟩
    rw [hend]
    simp [hover, hover.ne', errorPhase]
  · refine ⟨_, .inProgress, hpoll, ?_⟩
    rw [hend]
    simp [hbelow.ne, hbelow.not_gt, hst]

/-- Settles O25: the routed state, with the decoder of `s` itself. -/
theorem pollInFileRoutesEveryByte : Obligations.PollInFileRoutesEveryByte := by
  intro chunk s hst
  have hdecoder : SameDecoder s s := ⟨rfl, rfl, rfl⟩
  refine ⟨_, exec_poll chunk s, ?sink, fun hwithin => ?kept⟩
  case sink => rw [poll_file hst, pollFile_sink, routed_sink _ hdecoder rfl]
  case kept =>
    obtain ⟨r, p, hend⟩ := pollFile_within hwithin
    rw [poll_file hst, hend]
    refine ⟨?ctx, ?frame⟩
    case ctx =>
      obtain ⟨out, hout, -⟩ := emitted_lzFeed chunk s
      rw [answer_ctx, setPhase_ctx, routed_ctx _ hdecoder rfl, congrArg State.ctx hout]
    case frame =>
      rw [routed_frame]
      rfl

end Sys2Proof.Machine
end

section
/-! The step and the rules over every instruction (10_state.md section 1, 43_fsm_commands.md section 5): the four
commands that can do more than advance the decoder, and what no instruction does. -/

namespace Sys2Proof.Machine

/-! ## The step (R3, R7, R89) -/

theorem step_of_empty {s : State} (h : s.port = []) : step s = .next s := by
  simp only [step, fetch, h]

theorem step_of_input {s : State} {e : PortEvent} {later : List PortEvent} (h : s.port = e :: later) :
    step s = serve e { s with port := later } := by
  simp only [step, fetch, h]

theorem serveCommand_of_ok {t : Transaction} {i : Instr} (h : decodeCommand t = .ok i) (s : State) :
    serveCommand t s = exec i s := by
  simp only [serveCommand, h]

theorem serveCommand_of_error {t : Transaction} {e : DecodeError} (h : decodeCommand t = .error e) (s : State) :
    serveCommand t s = .refused (.operandMismatch t.op) := by
  simp only [serveCommand, h]

/-- The opcode rows of R89 decode every transaction the port can carry. -/
theorem decodeCommand_of_wellFormed {t : Transaction} (h : t.wellFormed = true) : ∃ i, decodeCommand t = .ok i := by
  obtain ⟨op, x⟩ := t
  cases x with
  | word v =>
    have hop : op = 0b000#3 ∨ op = 0b111#3 ∨ op = 0b001#3 ∨ op = 0b010#3 := by
      simpa [Transaction.wellFormed, operandFits, or_assoc] using h
    obtain rfl | rfl | rfl | rfl := hop <;> exact ⟨_, rfl⟩
  | chunk bytes =>
    have hop : op = 0b000#3 ∨ op = 0b111#3 ∨ op = 0b011#3 := by
      simpa [Transaction.wellFormed, operandFits, or_assoc] using h
    obtain rfl | rfl | rfl := hop <;> exact ⟨_, rfl⟩
  | none =>
    have hop : op = 0b000#3 ∨ op = 0b111#3 ∨ op = 0b100#3 ∨ op = 0b101#3 ∨ op = 0b110#3 := by
      simpa [Transaction.wellFormed, operandFits, or_assoc] using h
    obtain rfl | rfl | rfl | rfl | rfl := hop <;> exact ⟨_, rfl⟩

/-- Settles O5. -/
theorem stepRunsDecodedCommand : Obligations.StepRunsDecodedCommand :=
  fun _ => ⟨fun _ _ _ hport hdecode => (step_of_input hport).trans (serveCommand_of_ok hdecode _), step_of_empty⟩

/-- Settles O7. -/
theorem resetInputForgetsDownload : Obligations.ResetInputForgetsDownload :=
  fun _ _ hport => ⟨_, step_of_input hport, resetInput_st _, resetInput_magicCfg _, resetInput_sink _,
    resetInput_results _, resetInput_port _⟩

/-! ## What an instruction can do -/

/-- All that an instruction other than four of the commands does to the elements the rules below are about: output is
appended and counted, `st` and `magic_cfg` stand. -/
structure Advances (s t : State) : Prop where
  st : t.st = s.st
  magicCfg : t.magicCfg = s.magicCfg
  output : ∃ out, t.sink = s.sink ++ out ∧ t.ctx.written = s.ctx.written + out.length

/-- What leaves sink and count too. -/
theorem Advances.of_still {s t : State} (hst : t.st = s.st) (hmagic : t.magicCfg = s.magicCfg) (hsink : t.sink = s.sink)
    (hwritten : t.ctx.written = s.ctx.written) : Advances s t :=
  ⟨hst, hmagic, [], by rw [hsink, List.append_nil], by rw [hwritten, List.length_nil, Nat.add_zero]⟩

theorem Advances.of_emitted {s t : State} {out : List Byte} (h : Emitted out s t) : Advances s t :=
  ⟨h.st_eq, by rw [h], out, h.sink_eq, h.written_eq⟩

theorem advances_answer (r : Res) (s : State) : Advances s (answer r s) := .of_still rfl rfl rfl rfl

theorem advances_yieldUnit (r : UnitResult) (s : State) : Advances s (yieldUnit r s) := .of_still rfl rfl rfl rfl

/-- Every instruction answers a next state; all but CFG_MAGIC, START, RELEASE and POLL only advance, and so do the first
two when they are refused. -/
theorem exec_cases (i : Instr) (s : State) : ∃ t, exec i s = .next t ∧
    (Advances s t ∨
      (∃ m, i = .cfgMagic m ∧ s.st.active = false ∧ t = answer .done { s with magicCfg := m }) ∨
      (∃ n, i = .start n ∧ s.st.active = false ∧
        t = answer (.count n.toNat) (lzInit (dictTailInit s.draws) (openContext n s))) ∨
      (i = .release ∧ t = answer .done (teardown s)) ∨
      (∃ chunk, i = .poll chunk ∧ t = poll chunk s)) := by
  cases i with
  | reserved0 => exact ⟨_, exec_reserved0 s, .inl (advances_answer _ s)⟩
  | reserved7 => exact ⟨_, exec_reserved7 s, .inl (advances_answer _ s)⟩
  | cfgMagic m =>
    obtain ⟨-, hrun⟩ | ⟨hdead, hrun⟩ := execCfgMagic_cases m s
    · exact ⟨_, hrun, .inl (advances_answer _ s)⟩
    · exact ⟨_, hrun, .inr (.inl ⟨m, rfl, hdead, rfl⟩)⟩
  | start n =>
    obtain ⟨-, hrun⟩ | ⟨hdead, hrun⟩ := execStart_cases n s
    · exact ⟨_, hrun, .inl (advances_answer _ s)⟩
    · exact ⟨_, hrun, .inr (.inr (.inl ⟨n, rfl, hdead, rfl⟩))⟩
  | poll chunk => exact ⟨_, exec_poll chunk s, .inr (.inr (.inr (.inr ⟨chunk, rfl, rfl⟩)))⟩
  | release => exact ⟨_, exec_release s, .inr (.inr (.inr (.inl ⟨rfl, rfl⟩)))⟩
  | progress => exact ⟨_, exec_progress s, .inl (advances_answer _ s)⟩
  | verify => exact ⟨_, exec_verify s, .inl (advances_answer _ s)⟩
  | lit d => exact ⟨_, exec_lit d s, .inl (.of_emitted (emitted_emit d s))⟩
  | ref off len => exact ⟨_, exec_ref off len s, .inl (.of_emitted (emitted_copyBytes _ _ s))⟩
  | crcInit => exact ⟨_, exec_crcInit s, .inl (advances_yieldUnit _ s)⟩
  | crcStep c b => exact ⟨_, exec_crcStep c b s, .inl (advances_yieldUnit _ s)⟩
  | crcUpdate c bytes => exact ⟨_, exec_crcUpdate c bytes s, .inl (advances_yieldUnit _ s)⟩
  | crcFinal c => exact ⟨_, exec_crcFinal c s, .inl (advances_yieldUnit _ s)⟩
  | hdrFeed bytes => exact ⟨_, exec_hdrFeed bytes s, .inl (.of_still rfl rfl rfl rfl)⟩
  | hdrValidate => exact ⟨_, exec_hdrValidate s, .inl (advances_yieldUnit _ s)⟩
  | lzInit tail => exact ⟨_, exec_lzInit tail s, .inl (.of_still rfl rfl rfl rfl)⟩
  | emit v => exact ⟨_, exec_emit v s, .inl (.of_emitted (emitted_emit v s))⟩
  | lzFeedByte b =>
    obtain ⟨out, hout, -⟩ := emitted_lzFeedByte b s
    exact ⟨_, exec_lzFeedByte b s, .inl (.of_emitted hout)⟩
  | lzFeed bytes =>
    obtain ⟨out, hout, -⟩ := emitted_lzFeed bytes s
    exact ⟨_, exec_lzFeed bytes s, .inl (.of_emitted hout)⟩

/-- `exec_cases` of an instruction whose next state is known. -/
theorem exec_inv {i : Instr} {s t : State} (h : exec i s = .next t) : Advances s t ∨
    (∃ m, i = .cfgMagic m ∧ s.st.active = false ∧ t = answer .done { s with magicCfg := m }) ∨
    (∃ n, i = .start n ∧ s.st.active = false ∧
      t = answer (.count n.toNat) (lzInit (dictTailInit s.draws) (openContext n s))) ∨
    (i = .release ∧ t = answer .done (teardown s)) ∨
    (∃ chunk, i = .poll chunk ∧ t = poll chunk s) := by
  obtain ⟨u, hrun, hcases⟩ := exec_cases i s
  obtain rfl := Host.Outcome.next.inj (hrun.symm.trans h)
  exact hcases

/-- Settles O6: what the port can carry decodes, and every instruction answers a next state. -/
theorem stepNeverStops : Obligations.StepNeverStops := by
  intro s hwf
  cases hport : s.port with
  | nil => exact ⟨s, step_of_empty hport⟩
  | cons e later =>
    rw [step_of_input hport]
    cases e with
    | reset => exact ⟨_, rfl⟩
    | command tr =>
      have hcarried : (PortEvent.command tr).wellFormed = true := hwf _ (by rw [hport]; rfl)
      obtain ⟨i, hdecode⟩ := decodeCommand_of_wellFormed hcarried
      obtain ⟨t, hrun, -⟩ := exec_cases i { s with port := later }
      exact ⟨t, (serveCommand_of_ok hdecode _).trans hrun⟩

/-- Settles O16: the refusal while a context is live, and the fresh context otherwise. -/
theorem startOpensFreshContext : Obligations.StartOpensFreshContext := by
  intro n s
  refine ⟨fun hlive => ?refused, fun hdead => ?opened⟩
  case refused =>
    obtain ⟨-, hrun⟩ | ⟨hinactive, -⟩ := execStart_cases n s
    · exact hrun
    · simp [active_iff.mpr hlive] at hinactive
  case opened =>
    exact ⟨dictTailInit s.draws, _, exec_start_of_inactive (inactive_iff.mpr hdead) n, rfl,
      lzInit_openContext_ctx _ n s, rfl⟩

/-! ## What a POLL can do -/

/-- The ends of a POLL: a mere result outside Header and File, an incomplete header, a failed header check, or payload
routed in File, straight away or behind a good header. -/
theorem poll_cases (chunk : List Byte) (s : State) :
    (∃ r, poll chunk s = answer r s) ∨
    (s.st = .header ∧ poll chunk s = answer .inProgress (countReceived chunk.length (hdrFeed chunk s))) ∨
    (s.st = .header ∧ ∃ code, (code = .hdrLength ∨ code = .hdrMagic) ∧
      poll chunk s = raise code (headerFilled chunk s)) ∨
    (s.st = .header ∧ poll chunk s
      = pollFile (chunk.drop (20 - s.ctx.hdrFill.val)) (setPhase .file (headerFilled chunk s))) ∨
    (s.st = .file ∧ poll chunk s = pollFile chunk s) := by
  cases hst : s.st with
  | idle => exact .inl ⟨_, poll_idle hst chunk⟩
  | completed => exact .inl ⟨_, poll_completed hst chunk⟩
  | magicMismatch => exact .inl ⟨_, poll_error (.inl hst) chunk⟩
  | error => exact .inl ⟨_, poll_error (.inr hst) chunk⟩
  | file => exact .inr (.inr (.inr (.inr ⟨rfl, poll_file hst chunk⟩)))
  | header =>
    rw [poll_header hst]
    obtain ⟨-, hrun⟩ | ⟨hfull, -⟩ := pollHeader_cases chunk s
    · exact .inr (.inl ⟨rfl, hrun⟩)
    · obtain ⟨hrun, -⟩ | ⟨hrun, -⟩ | ⟨hrun, -⟩ := pollHeader_full_cases hfull
      · exact .inr (.inr (.inl ⟨rfl, _, .inl rfl, hrun⟩))
      · exact .inr (.inr (.inl ⟨rfl, _, .inr rfl, hrun⟩))
      · exact .inr (.inr (.inr (.inl ⟨rfl, hrun⟩)))

/-- All that routing payload does to the elements the rules below are about. -/
theorem advances_routed (bytes : List Byte) (s : State) : Advances s (routed bytes s) := by
  obtain ⟨out, -, -, hrun⟩ := routed_spec (t := s) bytes ⟨rfl, rfl, rfl⟩
  rw [hrun]
  exact ⟨rfl, rfl, out, rfl, rfl⟩

/-- A POLL in File ends in Completed, in Error or in File. -/
theorem pollFile_st (bytes : List Byte) {s : State} (hst : s.st = .file) :
    (pollFile bytes s).st = .completed ∨ (pollFile bytes s).st = .error ∨ (pollFile bytes s).st = .file := by
  obtain ⟨-, hrun⟩ | ⟨-, hrun⟩ | ⟨-, hrun⟩ := pollFile_cases bytes s
  · exact .inl (by rw [hrun]; rfl)
  · exact .inr (.inl (by rw [hrun]; rfl))
  · exact .inr (.inr (by rw [hrun, answer_st, routed_st, hst]))

theorem pollFile_magicCfg (bytes : List Byte) (s : State) : (pollFile bytes s).magicCfg = s.magicCfg := by
  obtain ⟨-, hrun⟩ | ⟨-, hrun⟩ | ⟨-, hrun⟩ := pollFile_cases bytes s <;> rw [hrun] <;> exact routed_magicCfg bytes s

/-- Output of a POLL in File is appended, and counted unless the POLL overruns. -/
theorem pollFile_output (bytes : List Byte) (s : State) :
    ∃ out, (pollFile bytes s).sink = s.sink ++ out ∧
      ((pollFile bytes s).st ≠ .error → (pollFile bytes s).ctx.written = s.ctx.written + out.length) := by
  obtain ⟨-, -, out, hsink, hwritten⟩ := advances_routed bytes s
  refine ⟨out, (pollFile_sink bytes s).trans hsink, fun hne => ?_⟩
  obtain ⟨-, hrun⟩ | ⟨-, hrun⟩ | ⟨-, hrun⟩ := pollFile_cases bytes s
  · rw [hrun]; exact hwritten
  · exact absurd (by rw [hrun]; rfl) hne
  · rw [hrun]; exact hwritten

theorem poll_magicCfg (chunk : List Byte) (s : State) : (poll chunk s).magicCfg = s.magicCfg := by
  obtain ⟨r, hrun⟩ | ⟨-, hrun⟩ | ⟨-, code, -, hrun⟩ | ⟨-, hrun⟩ | ⟨-, hrun⟩ := poll_cases chunk s
  · rw [hrun, answer_magicCfg]
  · rw [hrun, answer_magicCfg, countReceived_magicCfg, hdrFeed_magicCfg]
  · rw [hrun, raise_magicCfg, headerFilled_magicCfg]
  · rw [hrun, pollFile_magicCfg, setPhase_magicCfg, headerFilled_magicCfg]
  · rw [hrun, pollFile_magicCfg]

/-- The transitions of a POLL (43_fsm_commands.md section 5). -/
theorem poll_st (chunk : List Byte) (s : State) : (poll chunk s).st = s.st ∨
    (s.st = .header ∧ ((poll chunk s).st = .file ∨ (poll chunk s).st = .completed ∨ (poll chunk s).st = .magicMismatch ∨
      (poll chunk s).st = .error)) ∨
    (s.st = .file ∧ ((poll chunk s).st = .completed ∨ (poll chunk s).st = .error)) := by
  obtain ⟨r, hrun⟩ | ⟨-, hrun⟩ | ⟨hst, code, hcode, hrun⟩ | ⟨hst, hrun⟩ | ⟨hst, hrun⟩ := poll_cases chunk s
  · exact .inl (by rw [hrun, answer_st])
  · exact .inl (by rw [hrun, answer_st, countReceived_st, hdrFeed_st])
  · refine .inr (.inl ⟨hst, ?_⟩)
    rw [hrun, raise_st]
    obtain rfl | rfl := hcode
    · exact .inr (.inr (.inr rfl))
    · exact .inr (.inr (.inl rfl))
  · rw [hrun]
    obtain h | h | h := pollFile_st (chunk.drop (20 - s.ctx.hdrFill.val)) (setPhase_st .file (headerFilled chunk s))
    · exact .inr (.inl ⟨hst, .inr (.inl h)⟩)
    · exact .inr (.inl ⟨hst, .inr (.inr (.inr h))⟩)
    · exact .inr (.inl ⟨hst, .inl h⟩)
  · rw [hrun]
    obtain h | h | h := pollFile_st chunk hst
    · exact .inr (.inr ⟨hst, .inl h⟩)
    · exact .inr (.inr ⟨hst, .inr h⟩)
    · exact .inl (h.trans hst.symm)

/-- Output of a POLL is appended, and counted unless the POLL enters an error state. -/
theorem poll_output (chunk : List Byte) (s : State) : ∃ out, (poll chunk s).sink = s.sink ++ out ∧
    ((poll chunk s).st = .file ∨ (poll chunk s).st = .completed ∨ (poll chunk s).st = s.st →
      (poll chunk s).ctx.written = s.ctx.written + out.length) := by
  obtain ⟨r, hrun⟩ | ⟨-, hrun⟩ | ⟨hst, code, hcode, hrun⟩ | ⟨hst, hrun⟩ | ⟨hst, hrun⟩ := poll_cases chunk s
  · exact ⟨[], by rw [hrun, answer_sink, List.append_nil], fun _ => by rw [hrun]; rfl⟩
  · exact ⟨[], by rw [hrun, List.append_nil]; rfl, fun _ => by rw [hrun]; rfl⟩
  · refine ⟨[], by rw [hrun, List.append_nil]; rfl, fun hgoes => ?_⟩
    rw [hrun, raise_st, hst] at hgoes
    obtain rfl | rfl := hcode <;> simp [errorPhase] at hgoes
  · obtain ⟨out, hsink, hwritten⟩ :=
      pollFile_output (chunk.drop (20 - s.ctx.hdrFill.val)) (setPhase .file (headerFilled chunk s))
    rw [hrun]
    refine ⟨out, hsink, fun hgoes => hwritten fun herr => ?_⟩
    simp [herr, hst] at hgoes
  · obtain ⟨out, hsink, hwritten⟩ := pollFile_output chunk s
    rw [hrun]
    refine ⟨out, hsink, fun hgoes => hwritten fun herr => ?_⟩
    simp [herr, hst] at hgoes

/-! ## The statements -/

/-- Settles O30. -/
theorem onlyCfgMagicWritesMagic : Obligations.OnlyCfgMagicWritesMagic := by
  intro i s t h
  obtain hadv | ⟨m, rfl, hdead, rfl⟩ | ⟨n, rfl, -, rfl⟩ | ⟨rfl, rfl⟩ | ⟨chunk, rfl, rfl⟩ := exec_inv h
  · exact .inl hadv.magicCfg
  · exact .inr ⟨m, rfl, hdead, rfl⟩
  · exact .inl rfl
  · exact .inl (teardown_magicCfg s)
  · exact .inl (poll_magicCfg chunk s)

/-- Settles O31. -/
theorem phaseMovesOnlyAsTabled : Obligations.PhaseMovesOnlyAsTabled := by
  intro i s t h hmoves
  obtain hadv | ⟨m, rfl, -, rfl⟩ | ⟨n, rfl, hdead, rfl⟩ | ⟨rfl, rfl⟩ | ⟨chunk, rfl, rfl⟩ := exec_inv h
  · exact absurd hadv.st hmoves
  · exact absurd rfl hmoves
  · exact .inr (.inl ⟨n, rfl, hdead, rfl⟩)
  · exact .inl ⟨rfl, teardown_st s⟩
  · obtain hstays | ⟨hst, hto⟩ | ⟨hst, hto⟩ := poll_st chunk s
    · exact absurd hstays hmoves
    · exact .inr (.inr (.inl ⟨chunk, rfl, hst, hto⟩))
    · exact .inr (.inr (.inr ⟨chunk, rfl, hst, hto⟩))

/-- What an instruction adds to the sink, it adds to `written`, while the download goes on or `st` stands. -/
theorem exec_output {i : Instr} {s t : State} (h : exec i s = .next t) : ∃ out, t.sink = s.sink ++ out ∧
    (t.st = .file ∨ t.st = .completed ∨ t.st = s.st → t.ctx.written = s.ctx.written + out.length) := by
  obtain hadv | ⟨m, -, -, rfl⟩ | ⟨n, -, hdead, rfl⟩ | ⟨-, rfl⟩ | ⟨chunk, -, rfl⟩ := exec_inv h
  · obtain ⟨out, hsink, hwritten⟩ := hadv.output
    exact ⟨out, hsink, fun _ => hwritten⟩
  · exact ⟨[], (List.append_nil _).symm, fun _ => rfl⟩
  · refine ⟨[], (List.append_nil _).symm, fun hgoes => ?_⟩
    have hheader : .header = s.st := by simpa using hgoes
    simp [← hheader, Phase.active] at hdead
  · refine ⟨[], by rw [answer_sink, teardown_sink, List.append_nil], fun hgoes => ?_⟩
    have hidle : .idle = s.st := by simpa using hgoes
    rw [teardown_of_idle hidle.symm]
    rfl
  · exact poll_output chunk s

/-- Settles O33. -/
theorem sinkIsAppendOnly : Obligations.SinkIsAppendOnly := by
  intro i s t h
  obtain ⟨out, hsink, -⟩ := exec_output h
  exact ⟨out, hsink⟩

/-- Settles O34. -/
theorem writtenCountsSinkBytes : Obligations.WrittenCountsSinkBytes := by
  intro i s t h hgoes
  obtain ⟨out, hsink, hwritten⟩ := exec_output h
  rw [hwritten hgoes, hsink, List.length_append]
  omega

/-! ## The acceptance gate (R118, R119) -/

/-- A header and a payload are one chunk, read from an empty buffer. -/
theorem image_getD (h : Vector Byte 20) (p : List Byte) (i : Fin 20) : h[i] = (h.toList ++ p).getD i.val 0 := by
  have hi : i.val < h.toList.length := by rw [Vector.length_toList]; exact i.isLt
  rw [List.getD_append _ _ _ _ hi, List.getD_eq_getElem _ _ hi, Vector.getElem_toList]
  rfl

/-- The POLL of a whole good image completes the download, with the image's checksum in `crc` (R118). -/
theorem poll_image {h : Vector Byte 20} {p : List Byte} {t : State} (hst : t.st = .header)
    (hreceived : t.ctx.received = 0) (hfill : t.ctx.hdrFill.val = 0)
    (hdeclared : t.ctx.declaredLen.toNat = 20 + p.length)
    (hlen : (hdrLength h).toNat + 8 = t.ctx.declaredLen.toNat) (hmagic : hdrMagic h = t.magicCfg) :
    ∃ u, exec (.poll (h.toList ++ p)) t = .next u ∧ u.st = .completed ∧ u.results = t.results ++ [.done] ∧
      u.ctx.hdr = h ∧ u.ctx.crc = crcUpdate t.ctx.crc (h.toList.drop 8 ++ p) := by
  have hlength : (h.toList ++ p).length = t.ctx.declaredLen.toNat := by
    rw [List.length_append, Vector.length_toList, hdeclared]
  have hbytes : ∀ i : Fin 20, h[i] = if i.val < t.ctx.hdrFill.val then t.ctx.hdr[i]
      else (h.toList ++ p).getD (i.val - t.ctx.hdrFill.val) 0 := by
    intro i
    rw [hfill, if_neg (Nat.not_lt_zero _)]
    exact image_getD h p i
  have hcount : t.ctx.received = t.ctx.hdrFill.val := hreceived.trans hfill.symm
  have hfull : 20 ≤ t.ctx.hdrFill.val + (h.toList ++ p).length := by omega
  obtain ⟨u, r, hpoll, hresults, -, -, -, hends⟩ := pollCompletingHeaderTransitions _ t h hst hcount hfull hbytes
  obtain ⟨u', hpoll', -, hctx⟩ := pollCompletingHeaderRoutesRest _ t h hst hcount hfull hbytes hlen hmagic
  obtain rfl := Host.Outcome.next.inj (hpoll.symm.trans hpoll')
  simp only [hfill, Nat.zero_add, hlength, hlen, hmagic, ne_eq, not_true_eq_false, if_false, Nat.lt_irrefl,
    if_true] at hends
  obtain ⟨hcompleted, rfl⟩ := hends
  have hdrop : (h.toList ++ p).drop (20 - t.ctx.hdrFill.val) = p := by
    rw [hfill, List.drop_left' (Vector.length_toList)]
  have hend := hctx (by omega)
  refine ⟨u, hpoll, hcompleted, hresults, by rw [hend], ?_⟩
  rw [hend, hdrop, crcUpdate_append]

/-- Settles O29: START opens the context `poll_image` asks for, and in Completed the gate of R119 decides. -/
theorem imageAcceptedExactlyWhenChecksumMatches : Obligations.ImageAcceptedExactlyWhenChecksumMatches := by
  intro n h p s hdead hn hlen hmagic
  obtain ⟨u, hpoll, hcompleted, hresults, hhdr, hcrc⟩ := poll_image (h := h) (p := p)
    (t := answer (.count n.toNat) (lzInit (dictTailInit s.draws) (openContext n s))) rfl rfl rfl hn hlen hmagic
  refine ⟨_, u, _, exec_start_of_inactive (inactive_iff.mpr hdead) n, hpoll, exec_verify u, hcompleted, hcompleted, ?_⟩
  rw [answer_results, verifyResult_completed hcompleted, hresults, hcrc, hhdr, answer_results, List.append_assoc,
    List.append_assoc]
  rfl

end Sys2Proof.Machine
end

section
/-! The invariants of 10_state.md section 2: they hold after reset, and every step keeps them. -/

namespace Sys2Proof.Machine

/-! ## What the invariants are about -/

theorem DictTracks.congr {tail : Vector Byte 17} {s t : State} (h : DictTracks tail s)
    (hdict : t.ctx.dict = s.ctx.dict) (hwcur : t.ctx.wcur = s.ctx.wcur) (hwritten : t.ctx.written = s.ctx.written)
    (hsink : t.sink = s.sink) : DictTracks tail t :=
  ⟨h.1.congr hdict hwritten hsink, by rw [hwcur, hwritten]; exact h.2⟩

/-- The invariants speak of the core's elements and the sink alone. -/
theorem State.Inv.congr {s t : State} (h : s.Inv) (hst : t.st = s.st) (herr : t.err = s.err) (hctx : t.ctx = s.ctx)
    (hmagic : t.magicCfg = s.magicCfg) (hsink : t.sink = s.sink) : t.Inv where
  header := by rw [hst, hctx]; exact h.header
  file := by rw [hst, hctx, hmagic]; exact h.file
  completed := by rw [hst, hctx]; exact h.completed
  queue := by rw [hctx]; exact h.queue
  cursor := by rw [hst, hctx]; exact h.cursor
  expansion := by rw [hst, hctx]; exact h.expansion
  dictionary := by
    rw [hst]
    intro hactive
    obtain ⟨tail, hmatch⟩ := h.dictionary hactive
    exact ⟨tail, hmatch.congr (congrArg Context.dict hctx) (congrArg Context.written hctx) hsink⟩
  magicError := by rw [hst, herr]; exact h.magicError
  otherError := by rw [hst, herr]; exact h.otherError

theorem inv_answer (r : Res) {s : State} (h : s.Inv) : (answer r s).Inv := h.congr rfl rfl rfl rfl rfl

theorem inv_take_input (later : List PortEvent) {s : State} (h : s.Inv) : ({ s with port := later } : State).Inv :=
  h.congr rfl rfl rfl rfl rfl

/-- While no context is live, only the queue and the stored code are constrained (R34, R35). -/
theorem inv_of_inactive {s : State} (hst : s.st.active = false) (hqueue : pendingOnly s.ctx.bitq.bits)
    (hmagic : s.st = .magicMismatch → s.err = .hdrMagic)
    (hother : s.st = .error → s.err = .hdrLength ∨ s.err = .download) : s.Inv where
  header h := by simp [h, Phase.active] at hst
  file h := by simp [h, Phase.active] at hst
  completed h := by simp [h, Phase.active] at hst
  queue := hqueue
  cursor h := by simp [h] at hst
  expansion h := by rcases h with h | h <;> simp [h, Phase.active] at hst
  dictionary h := by simp [h] at hst
  magicError := hmagic
  otherError := hother

/-- Settles O2: no context is live, and the queue is empty. -/
theorem resetSatisfiesInvariant : Obligations.ResetSatisfiesInvariant :=
  inv_of_inactive rfl (pendingOnly_of_short (Nat.zero_le 7)) (fun h => by simp at h) (fun h => by simp at h)

/-- A dead context has them with any admissible code (R224). -/
theorem inv_raise {code : ErrCode} (hcode : code = .hdrLength ∨ code = .hdrMagic ∨ code = .download) (s : State) :
    (raise code s).Inv := by
  obtain rfl | rfl | rfl := hcode
  · exact inv_of_inactive rfl (pendingOnly_deadQueue _) (fun h => by simp [errorPhase] at h) (fun _ => .inl rfl)
  · exact inv_of_inactive rfl (pendingOnly_deadQueue _) (fun _ => rfl) (fun h => by simp [errorPhase] at h)
  · exact inv_of_inactive rfl (pendingOnly_deadQueue _) (fun h => by simp [errorPhase] at h) (fun _ => .inr rfl)

theorem inv_resetInput (s : State) : (resetInput s).Inv :=
  inv_of_inactive rfl (pendingOnly_deadQueue _) (fun h => by simp at h) (fun h => by simp at h)

theorem inv_teardown {s : State} (h : s.Inv) : (teardown s).Inv := by
  obtain ⟨hsame, -⟩ | ⟨hdead, -⟩ := teardown_cases s
  · rwa [hsame]
  · rw [hdead]
    exact inv_of_inactive rfl (pendingOnly_deadQueue _) (fun h => by simp at h) (fun h => by simp at h)

/-- The configured magic is constrained in File alone (R35). -/
theorem inv_cfgMagic {s : State} (hst : s.st.active = false) (h : s.Inv) (m : Word) :
    ({ s with magicCfg := m } : State).Inv :=
  inv_of_inactive hst h.queue h.magicError h.otherError

/-- While a context is live, `err` is not constrained, and R163 and the cursor stand together. -/
theorem inv_of_active {s : State} (hst : s.st.active = true)
    (hheader : s.st = .header → s.ctx.hdrFill.val < 20 ∧ s.ctx.received = s.ctx.hdrFill.val ∧ s.ctx.written = 0 ∧
      s.ctx.crc = 0xFFFFFFFF#32 ∧ s.ctx.wcur = 2031#11 ∧ s.ctx.bitq.bits = [])
    (hfile : s.st = .file → s.ctx.hdrFill.val = 20 ∧ 20 ≤ s.ctx.received ∧ s.ctx.received < s.ctx.declaredLen.toNat ∧
      (hdrLength s.ctx.hdr).toNat + 8 = s.ctx.declaredLen.toNat ∧ hdrMagic s.ctx.hdr = s.magicCfg)
    (hcompleted : s.st = .completed → s.ctx.hdrFill.val = 20 ∧ s.ctx.received = s.ctx.declaredLen.toNat ∧
      20 ≤ s.ctx.received)
    (hqueue : pendingOnly s.ctx.bitq.bits) (hexpansion : s.ctx.written ≤ 17 * (s.ctx.received - 20))
    (htracks : ∃ tail, DictTracks tail s) : s.Inv := by
  obtain ⟨tail, hmatch, hcursor⟩ := htracks
  refine ⟨hheader, hfile, hcompleted, hqueue, fun _ => hcursor, fun _ => hexpansion, fun _ => ⟨tail, hmatch⟩, ?_, ?_⟩
  · intro h
    simp [h, Phase.active] at hst
  · intro h
    simp [h, Phase.active] at hst

/-- In Header the counters stand at START's values, so only the dictionary is left to show. -/
theorem inv_of_header {s : State} (hst : s.st = .header)
    (hheader : s.ctx.hdrFill.val < 20 ∧ s.ctx.received = s.ctx.hdrFill.val ∧ s.ctx.written = 0 ∧
      s.ctx.crc = 0xFFFFFFFF#32 ∧ s.ctx.wcur = 2031#11 ∧ s.ctx.bitq.bits = [])
    (htracks : ∃ tail, DictTracks tail s) : s.Inv := by
  obtain ⟨-, -, hwritten, -, -, hbitq⟩ := id hheader
  refine inv_of_active (by rw [hst]; rfl) (fun _ => hheader) (fun h => ?_) (fun h => ?_) ?_ ?_ htracks
  · simp [hst] at h
  · simp [hst] at h
  · rw [hbitq]
    exact pendingOnly_of_short (Nat.zero_le 7)
  · rw [hwritten]
    exact Nat.zero_le _

/-- START's context has them (R182). -/
theorem inv_openContext (tail : Vector Byte 17) (n : Word) (s : State) : (lzInit tail (openContext n s)).Inv :=
  inv_of_header rfl ⟨by simp, rfl, rfl, rfl, rfl, rfl⟩ ⟨tail, dictMatches_of_seeded rfl rfl, rfl⟩

/-! ## Payload -/

/-- What holds in File before the completion test, overrun or not: the header is good, the decoder is where the bytes
behind the header have brought it. -/
structure Streaming (s : State) : Prop where
  filled : s.ctx.hdrFill.val = 20
  counted : 20 ≤ s.ctx.received
  length : (hdrLength s.ctx.hdr).toNat + 8 = s.ctx.declaredLen.toNat
  magic : hdrMagic s.ctx.hdr = s.magicCfg
  queue : pendingOnly s.ctx.bitq.bits
  expansion : s.ctx.written ≤ 17 * (s.ctx.received - 20)
  tracks : ∃ tail, DictTracks tail s

/-- A live context's dictionary and cursor, as R163 and R35 have them together. -/
theorem State.Inv.tracks {s : State} (h : s.Inv) (hactive : s.st.active = true) : ∃ tail, DictTracks tail s := by
  obtain ⟨tail, hmatch⟩ := h.dictionary hactive
  exact ⟨tail, hmatch, h.cursor hactive⟩

theorem streaming_of_inv {s : State} (hst : s.st = .file) (h : s.Inv) : Streaming s := by
  obtain ⟨hfilled, hcounted, -, hlength, hmagic⟩ := h.file hst
  exact ⟨hfilled, hcounted, hlength, hmagic, h.queue, h.expansion (.inl hst), h.tracks (by rw [hst]; rfl)⟩

theorem inv_of_streaming_file {s : State} (hst : s.st = .file) (h : Streaming s)
    (hbelow : s.ctx.received < s.ctx.declaredLen.toNat) : s.Inv :=
  inv_of_active (by rw [hst]; rfl) (fun h => by simp [hst] at h)
    (fun _ => ⟨h.filled, h.counted, hbelow, h.length, h.magic⟩) (fun h => by simp [hst] at h)
    h.queue h.expansion h.tracks

theorem inv_of_streaming_completed {s : State} (h : Streaming s) (hend : s.ctx.received = s.ctx.declaredLen.toNat) :
    (setPhase .completed s).Inv := by
  obtain ⟨tail, htracks⟩ := h.tracks
  exact inv_of_active rfl (fun h => by simp at h) (fun h => by simp at h) (fun _ => ⟨h.filled, hend, h.counted⟩)
    h.queue h.expansion ⟨tail, htracks.congr rfl rfl rfl rfl⟩

/-- The routed state has the decoder of `lz_feed`, and each byte adds at most 17 to `written` (R35). -/
theorem streaming_routed (bytes : List Byte) {s : State} (h : Streaming s) : Streaming (routed bytes s) := by
  have hdecoder : SameDecoder s s := ⟨rfl, rfl, rfl⟩
  have hctx := routed_ctx bytes hdecoder rfl
  obtain ⟨out, hout, hlen⟩ := emitted_lzFeed bytes s
  obtain ⟨tail, htracks⟩ := h.tracks
  have hexpansion := h.expansion
  have hcounted := h.counted
  refine ⟨?filled, ?counted, ?length, ?magic, ?queue, ?expansion, tail, ?tracks⟩
  case filled => rw [routed_hdrFill]; exact h.filled
  case counted => rw [routed_received]; omega
  case length => rw [routed_hdr, routed_declaredLen]; exact h.length
  case magic => rw [routed_hdr, routed_magicCfg]; exact h.magic
  case queue => rw [hctx]; exact pendingOnly_lzFeed bytes h.queue
  case expansion =>
    rw [hctx, hout.written_eq]
    simp only
    omega
  case tracks =>
    refine (dictTracks_lzFeed bytes htracks).congr ?_ ?_ ?_ (routed_sink bytes hdecoder rfl)
    · rw [hctx]
    · rw [hctx]
    · rw [hctx]

/-- Whatever the end of a POLL that routes payload, the invariants hold after it. -/
theorem inv_pollFile (bytes : List Byte) {s : State} (hst : s.st = .file) (h : Streaming s) :
    (pollFile bytes s).Inv := by
  have hrouted := streaming_routed bytes h
  rw [pollFile_eq]
  obtain ⟨hend, hrun⟩ | ⟨-, hrun⟩ | ⟨hbelow, hrun⟩ := completionCheck_cases (routed bytes s)
  · rw [hrun]
    exact inv_answer _ (inv_of_streaming_completed hrouted hend)
  · rw [hrun]
    exact inv_raise (.inr (.inr rfl)) _
  · rw [hrun]
    exact inv_answer _ (inv_of_streaming_file ((routed_st bytes s).trans hst) hrouted hbelow)

/-! ## POLL -/

/-- A header that stays incomplete: fill and count grow together, the decoder waits (R184). -/
theorem inv_hdrFeed {chunk : List Byte} {s : State} (hst : s.st = .header) (h : s.Inv)
    (hshort : s.ctx.hdrFill.val + chunk.length < 20) : (countReceived chunk.length (hdrFeed chunk s)).Inv := by
  obtain ⟨hfill, hreceived, hwritten, hcrc, hwcur, hbitq⟩ := h.header hst
  have hroom : hdrRoom s.ctx.hdrFill chunk = chunk.length := by unfold hdrRoom; omega
  obtain ⟨tail, htracks⟩ := h.tracks (by rw [hst]; rfl)
  have hfill' : (hdrFeed chunk s).ctx.hdrFill.val = s.ctx.hdrFill.val + chunk.length := by
    rw [hdrFeed_hdrFill_val, hroom]
  refine inv_of_header hst ⟨?fill, ?count, hwritten, hcrc, hwcur, hbitq⟩ ⟨tail, htracks.congr rfl rfl rfl rfl⟩
  case fill => rw [countReceived_hdrFill, hfill']; exact hshort
  case count => rw [countReceived_received, countReceived_hdrFill, hfill', hdrFeed_received, hreceived]

/-- A good header leaves a context that is ready for payload (R185). -/
theorem streaming_headerFilled {chunk : List Byte} {s : State} (hst : s.st = .header) (h : s.Inv)
    (hfull : 20 ≤ s.ctx.hdrFill.val + chunk.length)
    (hlen : (hdrLength (hdrFeed chunk s).ctx.hdr).toNat + 8 = s.ctx.declaredLen.toNat)
    (hmagic : hdrMagic (hdrFeed chunk s).ctx.hdr = s.magicCfg) : Streaming (setPhase .file (headerFilled chunk s)) := by
  obtain ⟨hfill, hreceived, hwritten, -⟩ := h.header hst
  obtain ⟨tail, htracks⟩ := h.tracks (by rw [hst]; rfl)
  have hcounted : s.ctx.received + (20 - s.ctx.hdrFill.val) = 20 := by omega
  refine ⟨?filled, hcounted.ge, hlen, hmagic, h.queue, ?expansion, tail, htracks.congr rfl rfl rfl rfl⟩
  case filled => exact congrArg Fin.val (hdrFeed_hdrFill_full hfull)
  case expansion =>
    have hzero : (setPhase .file (headerFilled chunk s)).ctx.written = 0 := hwritten
    rw [hzero]
    exact Nat.zero_le _

theorem inv_poll (chunk : List Byte) {s : State} (h : s.Inv) : (poll chunk s).Inv := by
  cases hst : s.st with
  | idle => rw [poll_idle hst]; exact inv_answer _ h
  | completed => rw [poll_completed hst]; exact inv_answer _ h
  | magicMismatch => rw [poll_error (.inl hst)]; exact inv_answer _ h
  | error => rw [poll_error (.inr hst)]; exact inv_answer _ h
  | file => rw [poll_file hst]; exact inv_pollFile chunk hst (streaming_of_inv hst h)
  | header =>
    rw [poll_header hst]
    obtain ⟨hshort, hrun⟩ | ⟨hfull, -⟩ := pollHeader_cases chunk s
    · rw [hrun]
      exact inv_answer _ (inv_hdrFeed hst h hshort)
    · obtain ⟨hrun, -⟩ | ⟨hrun, -⟩ | ⟨hrun, hlen, hmagic⟩ := pollHeader_full_cases hfull
      · rw [hrun]
        exact inv_raise (.inl rfl) _
      · rw [hrun]
        exact inv_raise (.inr (.inl rfl)) _
      · rw [hrun]
        exact inv_pollFile _ (setPhase_st _ _) (streaming_headerFilled hst h hfull hlen hmagic)

/-! ## The step -/

theorem inv_exec_cfgMagic {m : Word} {s t : State} (h : s.Inv) (hrun : exec (.cfgMagic m) s = .next t) : t.Inv := by
  obtain ⟨-, hexec⟩ | ⟨hdead, hexec⟩ := execCfgMagic_cases m s
  · obtain rfl := Host.Outcome.next.inj (hexec.symm.trans hrun)
    exact inv_answer _ h
  · obtain rfl := Host.Outcome.next.inj (hexec.symm.trans hrun)
    exact inv_answer _ (inv_cfgMagic hdead h m)

theorem inv_exec_start {n : Word} {s t : State} (h : s.Inv) (hrun : exec (.start n) s = .next t) : t.Inv := by
  obtain ⟨-, hexec⟩ | ⟨-, hexec⟩ := execStart_cases n s
  · obtain rfl := Host.Outcome.next.inj (hexec.symm.trans hrun)
    exact inv_answer _ h
  · obtain rfl := Host.Outcome.next.inj (hexec.symm.trans hrun)
    exact inv_answer _ (inv_openContext _ n s)

/-- Every command keeps the invariants; the units run alone, as instructions of their own, need not. -/
theorem inv_exec_command {tr : Transaction} {i : Instr} {s t : State} (hdecode : decodeCommand tr = .ok i) (h : s.Inv)
    (hrun : exec i s = .next t) : t.Inv := by
  obtain rfl | rfl | ⟨m, rfl⟩ | ⟨n, rfl⟩ | ⟨chunk, rfl⟩ | rfl | rfl | rfl := decodeCommand_ok hdecode
  case inr.inr.inl => exact inv_exec_cfgMagic h hrun
  case inr.inr.inr.inl => exact inv_exec_start h hrun
  all_goals obtain rfl := Host.Outcome.next.inj hrun
  · exact inv_answer _ h
  · exact inv_answer _ h
  · exact inv_poll chunk h
  · exact inv_answer _ h
  · exact inv_answer _ h
  · exact inv_answer _ (inv_teardown h)

/-- Settles O3: the input is taken off the port, and it is the reset input or a command. -/
theorem stepKeepsInvariant : Obligations.StepKeepsInvariant := by
  intro s t h hstep
  cases hport : s.port with
  | nil =>
    obtain rfl := Host.Outcome.next.inj ((step_of_empty hport).symm.trans hstep)
    exact h
  | cons e later =>
    rw [step_of_input hport] at hstep
    cases e with
    | reset =>
      obtain rfl := Host.Outcome.next.inj hstep
      exact inv_resetInput _
    | command tr =>
      have hserve : serveCommand tr { s with port := later } = .next t := hstep
      cases hdecode : decodeCommand tr with
      | error e =>
        rw [serveCommand_of_error hdecode] at hserve
        cases hserve
      | ok i =>
        rw [serveCommand_of_ok hdecode] at hserve
        exact inv_exec_command hdecode (inv_take_input later h) hserve

end Sys2Proof.Machine
end

section
/-! Dead elements (10_state.md section 2): from the invariants, two states that agree on all that is defined step
alike. -/

namespace Sys2Proof.Machine

/-! ## Agreement -/

/-- The two states agree outside `st`, `err` and the context. -/
def SameOutside (s t : State) : Prop :=
  s.magicCfg = t.magicCfg ∧ s.port = t.port ∧ s.sink = t.sink ∧ s.results = t.results ∧ s.draws = t.draws

theorem State.Agree.outside {s t : State} (h : s.Agree t) : SameOutside s t :=
  ⟨h.magicCfg, h.port, h.sink, h.results, h.draws⟩

theorem sameOutside_answer (r : Res) {s t : State} (h : SameOutside s t) : SameOutside (answer r s) (answer r t) := by
  obtain ⟨hmagic, hport, hsink, hresults, hdraws⟩ := h
  exact ⟨hmagic, hport, hsink, by rw [answer_results, answer_results, hresults], hdraws⟩

/-- While no context is live, only what is outside it and the stored code must agree (R34). -/
theorem agree_of_inactive {s t : State} (hinactive : s.st.active = false) (hst : s.st = t.st) (h : SameOutside s t)
    (herr : s.st = .magicMismatch ∨ s.st = .error → s.err = t.err) : s.Agree t := by
  obtain ⟨hmagic, hport, hsink, hresults, hdraws⟩ := h
  refine ⟨hst, hmagic, hport, hsink, hresults, hdraws, herr, fun h => ?_, fun h => ?_, ?_⟩
  · simp [h] at hinactive
  · simp [h] at hinactive
  · rintro (h | h) <;> simp [h, Phase.active] at hinactive

/-- States with the same context agree as soon as they do outside it. -/
theorem agree_of_ctx_eq {s t : State} (hst : s.st = t.st) (h : SameOutside s t) (hctx : s.ctx = t.ctx)
    (herr : s.st = .magicMismatch ∨ s.st = .error → s.err = t.err) : s.Agree t := by
  obtain ⟨hmagic, hport, hsink, hresults, hdraws⟩ := h
  refine ⟨hst, hmagic, hport, hsink, hresults, hdraws, herr, ?_, ?_, ?_⟩ <;> simp [hctx]

theorem agree_answer (r : Res) {s t : State} (h : s.Agree t) : (answer r s).Agree (answer r t) where
  st := h.st
  magicCfg := h.magicCfg
  port := h.port
  sink := h.sink
  results := by rw [answer_results, answer_results, h.results]
  draws := h.draws
  err := h.err
  stream := h.stream
  hdr := h.hdr
  decoder := h.decoder

theorem agree_take_input (later : List PortEvent) {s t : State} (h : s.Agree t) :
    ({ s with port := later } : State).Agree { t with port := later } :=
  ⟨h.st, h.magicCfg, rfl, h.sink, h.results, h.draws, h.err, h.stream, h.hdr, h.decoder⟩

theorem agree_cfgMagic (m : Word) {s t : State} (h : s.Agree t) :
    ({ s with magicCfg := m } : State).Agree { t with magicCfg := m } :=
  ⟨h.st, rfl, h.port, h.sink, h.results, h.draws, h.err, h.stream, h.hdr, h.decoder⟩

/-- A death leaves the same open values after the same number of draws (R224). -/
theorem agree_raise (code : ErrCode) {s t : State} (h : SameOutside s t) : (raise code s).Agree (raise code t) := by
  obtain ⟨hmagic, hport, hsink, hresults, hdraws⟩ := h
  refine agree_of_ctx_eq rfl ⟨hmagic, hport, hsink, ?_, ?_⟩ ?_ fun _ => rfl
  · rw [raise_results, raise_results, hresults]
  · rw [raise_draws, raise_draws, hdraws]
  · rw [raise_ctx, raise_ctx, hdraws]

theorem agree_teardown {s t : State} (h : s.Agree t) : (teardown s).Agree (teardown t) := by
  obtain ⟨hsame, hidle⟩ | ⟨hdead, hlive⟩ := teardown_cases s
  · rw [hsame, teardown_of_idle (h.st.symm.trans hidle)]
    exact h
  · obtain ⟨-, hidle⟩ | ⟨hdead', -⟩ := teardown_cases t
    · exact absurd (h.st.trans hidle) hlive
    · rw [hdead, hdead']
      refine agree_of_inactive rfl rfl ⟨h.magicCfg, h.port, h.sink, h.results, ?_⟩ (by simp)
      exact congrArg (· + 1) h.draws

theorem agree_resetInput {s t : State} (h : s.Agree t) : (resetInput s).Agree (resetInput t) :=
  agree_of_inactive rfl rfl ⟨rfl, h.port, h.sink, h.results, congrArg (· + 1) h.draws⟩ (by simp)

/-- START draws the same header bytes and the same tail after the same number of draws (R182). -/
theorem agree_openContext (n : Word) {s t : State} (h : s.Agree t) :
    (lzInit (dictTailInit s.draws) (openContext n s)).Agree (lzInit (dictTailInit t.draws) (openContext n t)) := by
  have hout : SameOutside (lzInit (dictTailInit s.draws) (openContext n s))
      (lzInit (dictTailInit t.draws) (openContext n t)) := by
    simp [SameOutside, h.magicCfg, h.port, h.sink, h.results, h.draws]
  refine agree_of_ctx_eq (by simp) hout ?_ (by simp)
  rw [lzInit_openContext_ctx, lzInit_openContext_ctx, h.draws]

/-! ## The header buffer -/

/-- A full buffer has no dead byte (R28). -/
theorem State.Agree.hdr_eq_of_full {s t : State} (h : s.Agree t) (hactive : s.st.active = true)
    (hfull : s.ctx.hdrFill.val = 20) : s.ctx.hdr = t.ctx.hdr :=
  Vector.ext fun i hi => h.hdr hactive ⟨i, hi⟩ (by rw [hfull]; exact hi)

/-- In Header and File a full buffer leaves no dead element in the context. -/
theorem State.Agree.ctx_eq_of_full {s t : State} (h : s.Agree t) (hst : s.st = .header ∨ s.st = .file)
    (hfull : s.ctx.hdrFill.val = 20) : s.ctx = t.ctx := by
  have hactive : s.st.active = true := by rcases hst with hst | hst <;> rw [hst] <;> rfl
  have hhdr := h.hdr_eq_of_full hactive hfull
  obtain ⟨hdeclared, hreceived, hwritten, hcrc, hfill⟩ := h.stream hactive
  obtain ⟨hdict, hwcur, hbitq⟩ := h.decoder hst
  generalize s.ctx = c at *
  generalize t.ctx = d at *
  cases c
  cases d
  simp_all

/-- A feed writes the same bytes above the same fill level. -/
theorem agree_hdrFeed (chunk : List Byte) (k : Nat) {s t : State} (hst : s.st = .header) (h : s.Agree t) :
    (countReceived k (hdrFeed chunk s)).Agree (countReceived k (hdrFeed chunk t)) := by
  have hactive : s.st.active = true := by rw [hst]; rfl
  obtain ⟨hdeclared, hreceived, hwritten, hcrc, hfill⟩ := h.stream hactive
  refine ⟨h.st, h.magicCfg, h.port, h.sink, h.results, h.draws, h.err, fun _ => ?stream, fun _ i hi => ?hdr, h.decoder⟩
  case stream =>
    refine ⟨hdeclared, congrArg (· + k) hreceived, hwritten, hcrc, Fin.ext ?_⟩
    rw [countReceived_hdrFill, countReceived_hdrFill, hdrFeed_hdrFill_val, hdrFeed_hdrFill_val, hfill]
  case hdr =>
    rw [countReceived_hdrFill, hdrFeed_hdrFill_val] at hi
    have hold := h.hdr hactive i
    simp only [Fin.getElem_fin, countReceived_hdr] at hold ⊢
    rw [hdrFeed_getElem, hdrFeed_getElem, ← hfill]
    by_cases hnew : s.ctx.hdrFill.val ≤ i.val
    · rw [if_pos ⟨hnew, hi⟩, if_pos ⟨hnew, hi⟩]
    · rw [if_neg (by omega), if_neg (by omega)]
      exact hold (by omega)

/-! ## Payload -/

/-- Routing reads the context alone. -/
theorem routed_sameOutside (bytes : List Byte) {s t : State} (h : SameOutside s t) (hctx : s.ctx = t.ctx) :
    SameOutside (routed bytes s) (routed bytes t) ∧ (routed bytes s).ctx = (routed bytes t).ctx := by
  obtain ⟨hmagic, hport, hsink, hresults, hdraws⟩ := h
  have hdecoder : SameDecoder s t := by rw [SameDecoder, hctx]; exact ⟨rfl, rfl, rfl⟩
  have hself : SameDecoder t t := ⟨rfl, rfl, rfl⟩
  refine ⟨⟨by simpa using hmagic, by simpa using hport, ?_, by simpa using hresults, by simpa using hdraws⟩, ?_⟩
  · rw [routed_sink bytes hdecoder hsink, routed_sink bytes hself rfl]
  · rw [routed_ctx bytes hdecoder (by rw [hctx]), routed_ctx bytes hself rfl, hctx]

theorem agree_pollFile (bytes : List Byte) {s t : State} (hs : s.st = .file) (ht : t.st = .file) (h : SameOutside s t)
    (hctx : s.ctx = t.ctx) : (pollFile bytes s).Agree (pollFile bytes t) := by
  obtain ⟨hrouted, hroutedCtx⟩ := routed_sameOutside bytes h hctx
  obtain hbelow | hend | hover := Nat.lt_trichotomy (s.ctx.received + bytes.length) s.ctx.declaredLen.toNat
  · rw [pollFile_below hbelow, pollFile_below (hctx ▸ hbelow)]
    exact agree_answer _ (agree_of_ctx_eq (by simp [hs, ht]) hrouted hroutedCtx (by simp [hs]))
  · rw [pollFile_done hend, pollFile_done (hctx ▸ hend)]
    exact agree_answer _ (agree_of_ctx_eq rfl hrouted hroutedCtx (by simp))
  · rw [pollFile_overrun hover, pollFile_overrun (hctx ▸ hover)]
    exact agree_raise _ hrouted

/-! ## POLL -/

theorem hdrValidate_congr {s t : State} (hctx : s.ctx = t.ctx) (hmagic : s.magicCfg = t.magicCfg) :
    hdrValidate s = hdrValidate t := by
  unfold hdrValidate
  rw [hctx, hmagic]

/-- The checks of a complete header read the context and `magic_cfg` alone. -/
theorem agree_headerDone (bytes : List Byte) {s t : State} (h : SameOutside s t) (hctx : s.ctx = t.ctx) :
    (headerDone bytes s).Agree (headerDone bytes t) := by
  have hfed : (feedHeaderCrc s).ctx = (feedHeaderCrc t).ctx := by
    simp only [feedHeaderCrc, setCrc, hctx]
  have hcheck : hdrValidate (feedHeaderCrc s) = hdrValidate (feedHeaderCrc t) := by
    obtain ⟨hmagic, -⟩ := h
    exact hdrValidate_congr hfed hmagic
  simp only [headerDone, hcheck]
  cases hdrValidate (feedHeaderCrc t) with
  | lengthMismatch => exact agree_raise _ h
  | magicMismatch => exact agree_raise _ h
  | ok => exact agree_pollFile _ rfl rfl h hfed

theorem agree_pollHeader (chunk : List Byte) {s t : State} (hst : s.st = .header) (h : s.Agree t) :
    (pollHeader chunk s).Agree (pollHeader chunk t) := by
  obtain ⟨-, -, -, -, hfill⟩ := h.stream (by rw [hst]; rfl)
  obtain ⟨hshort, hrun⟩ | ⟨hfull, hrun⟩ := pollHeader_cases chunk s
  · obtain ⟨-, hrun'⟩ | ⟨hfull', -⟩ := pollHeader_cases chunk t
    · rw [hrun, hrun']
      exact agree_answer _ (agree_hdrFeed chunk _ hst h)
    · rw [← hfill] at hfull'
      omega
  · obtain ⟨hshort', -⟩ | ⟨-, hrun'⟩ := pollHeader_cases chunk t
    · rw [← hfill] at hshort'
      omega
    · rw [hrun, hrun', ← hfill]
      have hfed := agree_hdrFeed chunk (20 - s.ctx.hdrFill.val) hst h
      exact agree_headerDone _ hfed.outside
        (hfed.ctx_eq_of_full (.inl hst) (congrArg Fin.val (hdrFeed_hdrFill_full hfull)))

theorem agree_poll (chunk : List Byte) {s t : State} (hinv : s.Inv) (h : s.Agree t) :
    (poll chunk s).Agree (poll chunk t) := by
  cases hst : s.st with
  | idle =>
    rw [poll_idle hst, poll_idle (h.st.symm.trans hst)]
    exact agree_answer _ h
  | completed =>
    rw [poll_completed hst, poll_completed (h.st.symm.trans hst)]
    exact agree_answer _ h
  | magicMismatch =>
    rw [poll_error (.inl hst), poll_error (.inl (h.st.symm.trans hst)), h.err (.inl hst)]
    exact agree_answer _ h
  | error =>
    rw [poll_error (.inr hst), poll_error (.inr (h.st.symm.trans hst)), h.err (.inr hst)]
    exact agree_answer _ h
  | header =>
    rw [poll_header hst, poll_header (h.st.symm.trans hst)]
    exact agree_pollHeader chunk hst h
  | file =>
    obtain ⟨hfilled, -⟩ := hinv.file hst
    rw [poll_file hst, poll_file (h.st.symm.trans hst)]
    exact agree_pollFile chunk hst (h.st.symm.trans hst) h.outside (h.ctx_eq_of_full (.inr hst) hfilled)

/-! ## The read-only commands -/

theorem progressResult_agree {s t : State} (h : s.Agree t) : progressResult s = progressResult t := by
  have hst := h.st.symm
  cases hs : s.st with
  | idle => rw [progressResult_idle hs, progressResult_idle (hst.trans hs)]
  | header | file | completed =>
    obtain ⟨-, -, hwritten, -⟩ := h.stream (by rw [hs]; rfl)
    rw [progressResult_live (by simp [hs]), progressResult_live (by simp [hst, hs]), hwritten]
  | magicMismatch | error =>
    rw [progressResult_error (by simp [hs]), progressResult_error (by simp [hst, hs]), h.err (by simp [hs])]

/-- In Completed the stored checksum is in a full buffer (R35). -/
theorem verifyResult_agree {s t : State} (hinv : s.Inv) (h : s.Agree t) : verifyResult s = verifyResult t := by
  have hst := h.st.symm
  cases hs : s.st with
  | idle | header | file => rw [verifyResult_incomplete (by simp [hs]), verifyResult_incomplete (by simp [hst, hs])]
  | magicMismatch | error =>
    rw [verifyResult_error (by simp [hs]), verifyResult_error (by simp [hst, hs]), h.err (by simp [hs])]
  | completed =>
    have hactive : s.st.active = true := by rw [hs]; rfl
    obtain ⟨hfilled, -⟩ := hinv.completed hs
    obtain ⟨-, -, -, hcrc, -⟩ := h.stream hactive
    rw [verifyResult_completed hs, verifyResult_completed (hst.trans hs), hcrc, h.hdr_eq_of_full hactive hfilled]

/-! ## The step -/

/-- The two outcomes are next states that agree, or the same refusal. -/
def AgreeOutcome (o o' : Host.Outcome State Fault Refusal) : Prop :=
  (∃ s t, o = .next s ∧ o' = .next t ∧ s.Agree t) ∨ ∃ r, o = .refused r ∧ o' = .refused r

theorem AgreeOutcome.next {s t : State} (h : s.Agree t) : AgreeOutcome (.next s) (.next t) := .inl ⟨s, t, rfl, rfl, h⟩

theorem agree_exec_cfgMagic (m : Word) {s t : State} (h : s.Agree t) :
    AgreeOutcome (exec (.cfgMagic m) s) (exec (.cfgMagic m) t) := by
  have hactive : t.st.active = s.st.active := by rw [h.st]
  rw [exec_cfgMagic, exec_cfgMagic, execCfgMagic, execCfgMagic, hactive]
  cases s.st.active
  · exact .next (agree_answer _ (agree_cfgMagic m h))
  · exact .next (agree_answer _ h)

theorem agree_exec_start (n : Word) {s t : State} (h : s.Agree t) :
    AgreeOutcome (exec (.start n) s) (exec (.start n) t) := by
  have hactive : t.st.active = s.st.active := by rw [h.st]
  rw [exec_start, exec_start, execStart, execStart, hactive]
  cases s.st.active
  · exact .next (agree_answer _ (agree_openContext n h))
  · exact .next (agree_answer _ h)

theorem agree_serveCommand (tr : Transaction) {s t : State} (hinv : s.Inv) (h : s.Agree t) :
    AgreeOutcome (serveCommand tr s) (serveCommand tr t) := by
  cases hdecode : decodeCommand tr with
  | error e =>
    rw [serveCommand_of_error hdecode, serveCommand_of_error hdecode]
    exact .inr ⟨_, rfl, rfl⟩
  | ok i =>
    rw [serveCommand_of_ok hdecode, serveCommand_of_ok hdecode]
    obtain rfl | rfl | ⟨m, rfl⟩ | ⟨n, rfl⟩ | ⟨chunk, rfl⟩ | rfl | rfl | rfl := decodeCommand_ok hdecode
    · exact .next (agree_answer _ h)
    · exact .next (agree_answer _ h)
    · exact agree_exec_cfgMagic m h
    · exact agree_exec_start n h
    · exact .next (agree_poll chunk hinv h)
    · rw [exec_progress, exec_progress, progressResult_agree h]
      exact .next (agree_answer _ h)
    · rw [exec_verify, exec_verify, verifyResult_agree hinv h]
      exact .next (agree_answer _ h)
    · exact .next (agree_answer _ (agree_teardown h))

theorem agree_step {s t : State} (hinv : s.Inv) (h : s.Agree t) : AgreeOutcome (step s) (step t) := by
  cases hport : s.port with
  | nil =>
    rw [step_of_empty hport, step_of_empty (h.port.symm.trans hport)]
    exact .next h
  | cons e later =>
    rw [step_of_input hport, step_of_input (h.port.symm.trans hport)]
    cases e with
    | reset => exact .next (agree_resetInput (agree_take_input later h))
    | command tr => exact agree_serveCommand tr (inv_take_input later hinv) (agree_take_input later h)

/-- Settles O4. -/
theorem deadStateIsNeverRead : Obligations.DeadStateIsNeverRead := by
  intro s t hinv h
  obtain ⟨s₁, t₁, hs, ht, hagree⟩ | ⟨r, hs, ht⟩ := agree_step hinv h
  · rw [hs, ht]
    refine ⟨fun s' hs' => ⟨t₁, rfl, ?_⟩, fun r hr => (by cases hr)⟩
    obtain rfl := Host.Outcome.next.inj hs'
    exact hagree
  · rw [hs, ht]
    exact ⟨fun s' hs' => (by cases hs'), fun r' hr => hr⟩

end Sys2Proof.Machine
end

section
/-! Chunk boundaries (R197): two POLLs in a row end where one POLL of both chunks ends, so any division does. -/

namespace Sys2Proof.Machine

/-! ## States that differ in their earlier results -/

/-- The state with another record of results (R92). -/
def setResults (rs : List Res) (s : State) : State := { s with results := rs }

/-- `u` is `v` but for the results before the last. -/
def SameEnd (u v : State) : Prop := ∃ rs, u = setResults rs v ∧ rs.getLast? = v.results.getLast?

theorem SameEnd.refl (u : State) : SameEnd u u := ⟨u.results, rfl, rfl⟩

theorem SameEnd.trans {u v w : State} (h : SameEnd u v) (h' : SameEnd v w) : SameEnd u w := by
  obtain ⟨rs, rfl, hlast⟩ := h
  obtain ⟨rs', rfl, hlast'⟩ := h'
  exact ⟨rs, rfl, hlast.trans hlast'⟩

theorem SameEnd.getLast?_eq {u v : State} (h : SameEnd u v) : u.results.getLast? = v.results.getLast? := by
  obtain ⟨rs, rfl, hlast⟩ := h
  exact hlast

theorem getLast?_answer (r : Res) (s : State) : (answer r s).results.getLast? = some r := by
  rw [answer_results, List.getLast?_concat]

theorem getLast?_raise (code : ErrCode) (s : State) : (raise code s).results.getLast? = some (.err code) := by
  rw [raise_results, List.getLast?_concat]

/-- A result answered after different earlier results. -/
theorem sameEnd_answer (r : Res) (rs : List Res) (s : State) : SameEnd (answer r (setResults rs s)) (answer r s) :=
  ⟨rs ++ [r], rfl, by rw [getLast?_answer, List.getLast?_concat]⟩

theorem sameEnd_raise (code : ErrCode) (rs : List Res) (s : State) :
    SameEnd (raise code (setResults rs s)) (raise code s) :=
  ⟨rs ++ [.err code], rfl, by rw [getLast?_raise, List.getLast?_concat]⟩

/-- Routing neither reads nor writes the results. -/
theorem routed_withResults (bytes : List Byte) (rs : List Res) (s : State) :
    routed bytes (setResults rs s) = setResults rs (routed bytes s) := by
  obtain ⟨x, -, hx, hrun⟩ := routed_spec (s := setResults rs s) (t := s) bytes ⟨rfl, rfl, rfl⟩
  obtain ⟨y, -, hy, hrun'⟩ := routed_spec (s := s) (t := s) bytes ⟨rfl, rfl, rfl⟩
  rw [hrun, hrun', hx.unique hy]
  rfl

/-- The completion test reads the two counts alone. -/
theorem sameEnd_completionCheck (rs : List Res) (s : State) :
    SameEnd (completionCheck (setResults rs s)) (completionCheck s) := by
  have hexhausted : exhausted (setResults rs s) = exhausted s := rfl
  have hoverrun : overrun (setResults rs s) = overrun s := rfl
  rw [completionCheck, completionCheck, hexhausted, hoverrun]
  cases exhausted s
  · cases overrun s
    · exact sameEnd_answer .inProgress rs s
    · exact sameEnd_raise .download rs s
  · exact sameEnd_answer .done rs (setPhase .completed s)

theorem sameEnd_pollFile (bytes : List Byte) (rs : List Res) (s : State) :
    SameEnd (pollFile bytes (setResults rs s)) (pollFile bytes s) := by
  rw [pollFile_eq, pollFile_eq, routed_withResults]
  exact sameEnd_completionCheck rs (routed bytes s)

theorem sameEnd_headerDone (bytes : List Byte) (rs : List Res) (s : State) :
    SameEnd (headerDone bytes (setResults rs s)) (headerDone bytes s) := by
  have hcheck : hdrValidate (feedHeaderCrc (setResults rs s)) = hdrValidate (feedHeaderCrc s) := rfl
  simp only [headerDone, hcheck]
  cases hdrValidate (feedHeaderCrc s) with
  | lengthMismatch => exact sameEnd_raise .hdrLength rs (feedHeaderCrc s)
  | magicMismatch => exact sameEnd_raise .hdrMagic rs (feedHeaderCrc s)
  | ok => exact sameEnd_pollFile bytes rs (setPhase .file (feedHeaderCrc s))

theorem sameEnd_pollHeader (chunk : List Byte) (rs : List Res) (s : State) :
    SameEnd (pollHeader chunk (setResults rs s)) (pollHeader chunk s) := by
  obtain ⟨hshort, hrun⟩ | ⟨hfull, hrun⟩ := pollHeader_cases chunk s
  · obtain ⟨-, hrun'⟩ | ⟨hfull', -⟩ := pollHeader_cases chunk (setResults rs s)
    · rw [hrun, hrun']
      exact sameEnd_answer .inProgress rs (countReceived chunk.length (hdrFeed chunk s))
    · exact absurd hfull' (Nat.not_le.mpr hshort)
  · obtain ⟨hshort', -⟩ | ⟨-, hrun'⟩ := pollHeader_cases chunk (setResults rs s)
    · exact absurd hfull (Nat.not_le.mpr hshort')
    · rw [hrun, hrun']
      exact sameEnd_headerDone _ rs (countReceived (20 - s.ctx.hdrFill.val) (hdrFeed chunk s))

/-- A POLL does not see the earlier results (R266). -/
theorem sameEnd_poll (chunk : List Byte) (rs : List Res) (s : State) :
    SameEnd (poll chunk (setResults rs s)) (poll chunk s) := by
  have hst : (setResults rs s).st = s.st := rfl
  cases hs : s.st with
  | idle =>
    rw [poll_idle hs, poll_idle (hst.trans hs)]
    exact sameEnd_answer (.err .download) rs s
  | completed =>
    rw [poll_completed hs, poll_completed (hst.trans hs)]
    exact sameEnd_answer .done rs s
  | magicMismatch =>
    rw [poll_error (.inl hs), poll_error (.inl (hst.trans hs))]
    exact sameEnd_answer (.err s.err) rs s
  | error =>
    rw [poll_error (.inr hs), poll_error (.inr (hst.trans hs))]
    exact sameEnd_answer (.err s.err) rs s
  | header =>
    rw [poll_header hs, poll_header (hst.trans hs)]
    exact sameEnd_pollHeader chunk rs s
  | file =>
    rw [poll_file hs, poll_file (hst.trans hs)]
    exact sameEnd_pollFile chunk rs s

/-! ## Two POLLs and one -/

/-- The state's last result is not that of an overrun (R187). -/
def NotOverrun (s : State) : Prop := s.results.getLast? ≠ some (.err .download)

/-- Payload in two POLLs: only the POLL that reaches the declared length completes, so nothing is left for the
second. -/
theorem pollFile_append {a b : List Byte} {s : State} (hst : s.st = .file) (hno : NotOverrun (pollFile (a ++ b) s)) :
    SameEnd (poll b (pollFile a s)) (pollFile (a ++ b) s) := by
  have hlen : (a ++ b).length = a.length + b.length := List.length_append
  have hwithin : s.ctx.received + (a ++ b).length ≤ s.ctx.declaredLen.toNat := by
    by_contra hover
    rw [pollFile_overrun (by omega)] at hno
    exact hno (getLast?_raise _ _)
  by_cases hend : s.ctx.received + a.length = s.ctx.declaredLen.toNat
  · obtain rfl : b = [] := List.length_eq_zero_iff.mp (by omega)
    rw [List.append_nil, pollFile_done hend, poll_completed rfl]
    exact sameEnd_answer .done _ _
  · rw [pollFile_below (by omega)]
    have hsecond := sameEnd_poll b ((routed a s).results ++ [.inProgress]) (routed a s)
    rwa [poll_file ((routed_st a s).trans hst), pollFile_eq, ← routed_append, ← pollFile_eq] at hsecond

/-- After a raise every POLL replays its code (R189). -/
theorem sameEnd_poll_raise (b : List Byte) (code : ErrCode) (s : State) :
    SameEnd (poll b (raise code s)) (raise code s) := by
  have herror : (raise code s).st = .magicMismatch ∨ (raise code s).st = .error := by
    rw [raise_st, errorPhase]
    split
    · exact .inl rfl
    · exact .inr rfl
  rw [poll_error herror]
  exact sameEnd_answer (.err code) _ (setResults s.results (raise code s))

theorem headerDone_append {a b : List Byte} {s : State} (hno : NotOverrun (headerDone (a ++ b) s)) :
    SameEnd (poll b (headerDone a s)) (headerDone (a ++ b) s) := by
  simp only [headerDone] at hno ⊢
  cases hcheck : hdrValidate (feedHeaderCrc s) with
  | lengthMismatch => exact sameEnd_poll_raise b .hdrLength (feedHeaderCrc s)
  | magicMismatch => exact sameEnd_poll_raise b .hdrMagic (feedHeaderCrc s)
  | ok =>
    rw [hcheck] at hno
    exact pollFile_append rfl hno

/-- A chunk fed to a header that stays incomplete can as well come with the next one (R138). -/
theorem pollHeader_after_feed {a b : List Byte} {s : State} (hshort : s.ctx.hdrFill.val + a.length < 20) :
    pollHeader b (countReceived a.length (hdrFeed a s)) = pollHeader (a ++ b) s := by
  have hroom : hdrRoom s.ctx.hdrFill a = a.length := by unfold hdrRoom; omega
  have hsum := hdrRoom_append a b s
  rw [hroom] at hsum
  have hfed : countReceived (hdrRoom (hdrFeed a s).ctx.hdrFill b) (hdrFeed b (countReceived a.length (hdrFeed a s)))
      = countReceived (hdrRoom s.ctx.hdrFill (a ++ b)) (hdrFeed (a ++ b) s) := by
    rw [hdrFeed_append, ← hsum]
    simp only [countReceived, hdrFeed, Nat.add_assoc]
  simp only [pollHeader, countReceived_hdrFill, hfed]
  rw [← hsum, List.drop_length_add_append]

theorem pollHeader_append {a b : List Byte} {s : State} (hst : s.st = .header)
    (hno : NotOverrun (pollHeader (a ++ b) s)) :
    SameEnd (poll b (pollHeader a s)) (pollHeader (a ++ b) s) := by
  obtain ⟨hshort, hrun⟩ | ⟨hfull, hrun⟩ := pollHeader_cases a s
  · have hsecond := sameEnd_poll b (s.results ++ [.inProgress]) (countReceived a.length (hdrFeed a s))
    have hst' : (countReceived a.length (hdrFeed a s)).st = .header := hst
    rw [poll_header hst', pollHeader_after_feed hshort] at hsecond
    rw [hrun]
    exact hsecond
  · have hfed : hdrFeed (a ++ b) s = hdrFeed a s := by
      rw [hdrFeed_append, hdrFeed_of_full (hdrFeed_hdrFill_full hfull)]
    obtain ⟨hshort', -⟩ | ⟨-, hrun'⟩ := pollHeader_cases (a ++ b) s
    · rw [List.length_append] at hshort'
      omega
    · rw [hfed, List.drop_append_of_le_length (by omega)] at hrun'
      rw [hrun'] at hno
      rw [hrun, hrun']
      exact headerDone_append hno

/-- Two POLLs in a row end where one POLL of both chunks ends, unless that one overruns (R197). -/
theorem poll_append {a b : List Byte} {s : State} (hno : NotOverrun (poll (a ++ b) s)) :
    SameEnd (poll b (poll a s)) (poll (a ++ b) s) := by
  cases hst : s.st with
  | idle =>
    rw [poll_idle hst] at hno
    exact absurd (getLast?_answer _ s) hno
  | completed =>
    rw [poll_completed hst, poll_completed hst, poll_completed (s := answer .done s) hst]
    exact sameEnd_answer .done _ s
  | magicMismatch =>
    rw [poll_error (.inl hst), poll_error (.inl hst), poll_error (s := answer (.err s.err) s) (.inl hst)]
    exact sameEnd_answer (.err s.err) _ s
  | error =>
    rw [poll_error (.inr hst), poll_error (.inr hst), poll_error (s := answer (.err s.err) s) (.inr hst)]
    exact sameEnd_answer (.err s.err) _ s
  | header =>
    rw [poll_header hst] at hno
    rw [poll_header hst, poll_header hst]
    exact pollHeader_append hst hno
  | file =>
    rw [poll_file hst] at hno
    rw [poll_file hst, poll_file hst]
    exact pollFile_append hst hno

theorem pollAll_cons (c : List Byte) (cs : List (List Byte)) (s : State) :
    pollAll (c :: cs) s = pollAll cs (poll c s) := rfl

/-- Any division into POLLs ends where the single POLL ends, unless that one overruns (R197). -/
theorem pollAll_flatten {cs : List (List Byte)} {s : State} (hcs : cs ≠ []) (hno : NotOverrun (poll cs.flatten s)) :
    SameEnd (pollAll cs s) (poll cs.flatten s) := by
  induction cs generalizing s with
  | nil => exact absurd rfl hcs
  | cons c cs ih =>
    rw [pollAll_cons, List.flatten_cons] at *
    by_cases hlast : cs = []
    · subst hlast
      rw [List.flatten_nil, List.append_nil]
      exact SameEnd.refl _
    · have htwo := poll_append hno
      have hno' : NotOverrun (poll cs.flatten (poll c s)) := by
        rw [NotOverrun, htwo.getLast?_eq]
        exact hno
      exact (ih hlast hno').trans htwo

/-! ## The statement -/

/-- Bytes within the declared length do not overrun. -/
theorem notOverrun_of_within {chunk : List Byte} {s : State} (hst : s.st = .header ∨ s.st = .file)
    (hwithin : s.ctx.received + chunk.length ≤ s.ctx.declaredLen.toNat) : NotOverrun (poll chunk s) := by
  have hfile : ∀ bytes u, u.ctx.received + bytes.length ≤ u.ctx.declaredLen.toNat → NotOverrun (pollFile bytes u) := by
    intro bytes u h
    obtain hend | hbelow := h.eq_or_lt
    · rw [pollFile_done hend, NotOverrun, getLast?_answer]
      simp
    · rw [pollFile_below hbelow, NotOverrun, getLast?_answer]
      simp
  obtain hst | hst := hst
  · rw [poll_header hst]
    obtain ⟨-, hrun⟩ | ⟨hfull, -⟩ := pollHeader_cases chunk s
    · rw [hrun, NotOverrun, getLast?_answer]
      simp
    · obtain ⟨hrun, -⟩ | ⟨hrun, -⟩ | ⟨hrun, -⟩ := pollHeader_full_cases hfull
      · rw [hrun, NotOverrun, getLast?_raise]
        simp
      · rw [hrun, NotOverrun, getLast?_raise]
        simp
      · rw [hrun]
        refine hfile _ _ ?_
        rw [setPhase_ctx, headerFilled_count hfull]
        exact hwithin
  · rw [poll_file hst]
    exact hfile chunk s hwithin

/-- Settles O28: neither bytes within the declared length nor a failed header check overrun. -/
theorem chunkBoundariesAreInvisible : Obligations.ChunkBoundariesAreInvisible := by
  intro cs s _ hst hcs hbytes
  have hno : NotOverrun (poll cs.flatten s) := by
    obtain hwithin | ⟨u, hpoll, hfails⟩ := hbytes
    · exact notOverrun_of_within hst hwithin
    · obtain rfl := Host.Outcome.next.inj ((exec_poll cs.flatten s).symm.trans hpoll)
      obtain hfails | hfails := hfails <;> rw [NotOverrun, hfails, List.getLast?_concat] <;> simp
  have hend := pollAll_flatten hcs hno
  refine ⟨_, exec_poll cs.flatten s, ?_, hend.getLast?_eq⟩
  obtain ⟨rs, heq, -⟩ := hend
  rw [heq]
  rfl

end Sys2Proof.Machine
end
